-- ==== Sys2Proof/Word.lean ====
section
/-! DEFINITION. The word types of the bootstrap VM core: bytes, 32-bit register values and register
indices (spec rules R5, R10, R13). -/

namespace Sys2Proof

/-- A register value: 32 bits, unsigned (rules R5, R10, R13). -/
abbrev Word := BitVec 32

/-- A byte of the Memory Image or of the instruction stream (rules R5, R23, R49). -/
abbrev Byte := BitVec 8

/-- A register index `0 … 63` (rule R13). An operand byte names only `0 … 61` (rules R14, R57);
the check is in `WellFormed.lean`. -/
abbrev RegIdx := Fin 64

/-- The index of the program counter, `PC_INDEX` (rule R5). -/
def pcIndex : RegIdx := 63

end Sys2Proof
end

