-- ==== Sys2Proof/Syntax.lean ====
section
/-! DEFINITION. The instructions: one constructor per row of `spec/opcode_table.json` (spec rules R62,
R64). A register operand is the index its name byte decodes to (rule R57), a literal is carried with the
instruction. Bytes the form ignores (rule R65) are not kept (DEDUCED, log entry 14, safe). -/

namespace Sys2Proof

/-- A decoded instruction. In every constructor `a` is the register `op3` names and `b` the register
`op4` names. -/
inductive Instr where
  /-- `LDH`, `=#`: load the 16-bit literal of four hexadecimal digit bytes, `h0` first (rule R72) -/
  | ldh (a : RegIdx) (h0 h1 h2 h3 : Byte)
  /-- `MOV`, `= `: register move (rule R73) -/
  | mov (a b : RegIdx)
  /-- `LDI`, `=$`: load the 32-bit literal `v` (rule R74) -/
  | ldi (a : RegIdx) (v : Word)
  /-- `LDB`, `=[`: load byte at `x[b]` (rule R76) -/
  | ldb (a b : RegIdx)
  /-- `LDW`, `=(`: load 32-bit word at `x[b]` (rule R77) -/
  | ldw (a b : RegIdx)
  /-- `STB`, `[=`: store byte at `x[a]` (rule R78) -/
  | stb (a b : RegIdx)
  /-- `STW`, `(=`: store 32-bit word at `x[a]` (rule R79) -/
  | stw (a b : RegIdx)
  /-- `ADD`, `+ ` (rule R81) -/
  | add (a b : RegIdx)
  /-- `SUB`, `- ` (rule R82) -/
  | sub (a b : RegIdx)
  /-- `MUL`, `* ` (rule R83) -/
  | mul (a b : RegIdx)
  /-- `DIV`, `/ ` (rule R84) -/
  | div (a b : RegIdx)
  /-- `AND`, `& ` (rule R85) -/
  | and (a b : RegIdx)
  /-- `OR`, `| ` (rule R86) -/
  | or (a b : RegIdx)
  /-- `XOR`, `^ ` (rule R87) -/
  | xor (a b : RegIdx)
  /-- `SHR`, `> `: logical shift right (rule R88) -/
  | shr (a b : RegIdx)
  /-- `SHL`, `< `: logical shift left (rule R89) -/
  | shl (a b : RegIdx)
  /-- `CEQ`, `?=`: compare equal (rule R91) -/
  | ceq (a b : RegIdx)
  /-- `CGT`, `?>`: compare greater than, unsigned (rule R92) -/
  | cgt (a b : RegIdx)
  /-- `CLT`, `?<`: compare less than, unsigned (rule R93) -/
  | clt (a b : RegIdx)
  /-- `CNE`, `?!`: compare not equal (rule R94) -/
  | cne (a b : RegIdx)
  /-- `SYS`, `S `: syscall with two values (rule R110) -/
  | sys (a b : RegIdx)
  /-- `SYSX`, `S+`: syscall with six values; `r2 … r5` are named by the extension bytes (rule R111) -/
  | sysx (a b r2 r3 r4 r5 : RegIdx)
  /-- `JMP`, `J `: jump to the address in `x[a]` (rule R127) -/
  | jmp (a : RegIdx)
  /-- `MOV?`, `=?` (rule R96) -/
  | movQ (a b : RegIdx)
  /-- `ADD?`, `+?` (rule R97) -/
  | addQ (a b : RegIdx)
  /-- `SUB?`, `-?` (rule R98) -/
  | subQ (a b : RegIdx)
  /-- `MUL?`, `*?` (rule R99) -/
  | mulQ (a b : RegIdx)
  /-- `DIV?`, `/?` (rule R100) -/
  | divQ (a b : RegIdx)
  /-- `AND?`, `&?` (rule R101) -/
  | andQ (a b : RegIdx)
  /-- `OR?`, `|?` (rule R102) -/
  | orQ (a b : RegIdx)
  /-- `XOR?`, `^?` (rule R103) -/
  | xorQ (a b : RegIdx)
  /-- `SHR?`, `>?` (rule R104) -/
  | shrQ (a b : RegIdx)
  /-- `SHL?`, `<?` (rule R105) -/
  | shlQ (a b : RegIdx)
  /-- `SYS?`, `S?` (rule R106) -/
  | sysQ (a b : RegIdx)
  /-- `JMP?`, `J?` (rule R107) -/
  | jmpQ (a : RegIdx)
  /-- `RSV_LD16`: the reserved 16-bit load, bytes 0x3D 0x7B (rule R64) -/
  | rsvLd16
  /-- `RSV_ST16`: the reserved 16-bit store, bytes 0x7B 0x3D (rule R64) -/
  | rsvSt16
deriving DecidableEq, Repr

end Sys2Proof
end

