-- ==== Sys2Proof/WellFormed.lean ====
section
/-! DEFINITION. Which instructions an encoding can spell: every register operand is one that an operand
byte can name (spec rules R14, R57), so `x[62]` and the program counter `x[63]` are none. -/

namespace Sys2Proof

/-- The registers an operand byte can name, `x[0] … x[61]` (rule R14). -/
def RegIdx.nameable (r : RegIdx) : Bool := decide (r.val < 62)

/-- The register operands of an instruction, in the order of their bytes. -/
def Instr.regs : Instr → List RegIdx
  | .ldh a _ _ _ _ => [a]
  | .mov a b => [a, b]
  | .ldi a _ => [a]
  | .ldb a b => [a, b]
  | .ldw a b => [a, b]
  | .stb a b => [a, b]
  | .stw a b => [a, b]
  | .add a b => [a, b]
  | .sub a b => [a, b]
  | .mul a b => [a, b]
  | .div a b => [a, b]
  | .and a b => [a, b]
  | .or a b => [a, b]
  | .xor a b => [a, b]
  | .shr a b => [a, b]
  | .shl a b => [a, b]
  | .ceq a b => [a, b]
  | .cgt a b => [a, b]
  | .clt a b => [a, b]
  | .cne a b => [a, b]
  | .sys a b => [a, b]
  | .sysx a b r2 r3 r4 r5 => [a, b, r2, r3, r4, r5]
  | .jmp a => [a]
  | .movQ a b => [a, b]
  | .addQ a b => [a, b]
  | .subQ a b => [a, b]
  | .mulQ a b => [a, b]
  | .divQ a b => [a, b]
  | .andQ a b => [a, b]
  | .orQ a b => [a, b]
  | .xorQ a b => [a, b]
  | .shrQ a b => [a, b]
  | .shlQ a b => [a, b]
  | .sysQ a b => [a, b]
  | .jmpQ a => [a]
  | .rsvLd16 => []
  | .rsvSt16 => []

/-- Every register operand can be named (rule R14). No other field of an instruction is constrained:
every digit byte and every 32-bit literal has an encoding (rules R59, R60). -/
def Instr.wellFormed (i : Instr) : Bool := i.regs.all RegIdx.nameable

end Sys2Proof
end

