-- ==== Sys2Proof/Decode.lean ====
section
/-! DEFINITION. From bytes to an instruction and back (spec rules R49 to R68): register names, the opcode
map of rule R62, `decode` (total, rejecting by name) and `encode`. Character codes are the ASCII values the
spec's table gives (rule R62, G1). -/

namespace Sys2Proof

/-! ### Byte order -/

/-- The number a list of bytes spells, the byte at the lowest address least significant (rule R31). -/
def leNat : List Byte → Nat
  | [] => 0
  | b :: bs => b.toNat + 256 * leNat bs

/-- The low `n` bytes of `v`, the least significant first (rules R31, R34). -/
def leBytes : Nat → Word → List Byte
  | 0, _ => []
  | n + 1, v => v.setWidth 8 :: leBytes n (v >>> 8)

/-! ### Register names -/

/-- `RegName`, the Register Name Encoding (rule R57): total, every byte outside the three ranges names
register 0. -/
def regName (c : Byte) : RegIdx :=
  if 0x30 ≤ c.toNat ∧ c.toNat ≤ 0x39 then Fin.ofNat 64 (c.toNat - 0x30)
  else if 0x41 ≤ c.toNat ∧ c.toNat ≤ 0x5A then Fin.ofNat 64 (c.toNat - 0x41 + 10)
  else if 0x61 ≤ c.toNat ∧ c.toNat ≤ 0x7A then Fin.ofNat 64 (c.toNat - 0x61 + 36)
  else 0

/-- The character that names a register, the inverse of `regName` on `0 … 61` (rule R57). The two
indices that no character names give bytes that name register 0. -/
def regChar (r : RegIdx) : Byte :=
  if r.val < 10 then BitVec.ofNat 8 (0x30 + r.val)
  else if r.val < 36 then BitVec.ofNat 8 (0x41 + (r.val - 10))
  else BitVec.ofNat 8 (0x61 + (r.val - 36))

/-! ### The opcode map -/

/-- The byte `'?'`, the conditional marker when it stands as `op2` (rule R54). -/
def condMarker : Byte := 0x3F

/-- The byte `' '`, which the conditional marker is replaced by (rule R54). -/
def spaceByte : Byte := 0x20

/-- The rows of rule R62 with four extension bytes (formats F8H, F8L, F8S of rule R50), each with the
instruction it builds from the two named registers and the extension bytes (rules R59 to R61). -/
def longRows : List ((Byte × Byte) × (RegIdx → RegIdx → Byte → Byte → Byte → Byte → Instr)) :=
  [ ((0x3D, 0x23), fun a _ e0 e1 e2 e3 => .ldh a e0 e1 e2 e3),
    ((0x3D, 0x24), fun a _ e0 e1 e2 e3 => .ldi a (BitVec.ofNat 32 (leNat [e0, e1, e2, e3]))),
    ((0x53, 0x2B), fun a b e0 e1 e2 e3 =>
      .sysx a b (regName e0) (regName e1) (regName e2) (regName e3)) ]

/-- The four-byte rows of rule R62 whose second byte is their own, and the reserved pairs of rule R64. -/
def plainRows : List ((Byte × Byte) × (RegIdx → RegIdx → Instr)) :=
  [ ((0x3D, 0x20), .mov),
    ((0x3D, 0x5B), .ldb),
    ((0x3D, 0x28), .ldw),
    ((0x5B, 0x3D), .stb),
    ((0x28, 0x3D), .stw),
    ((0x2B, 0x20), .add),
    ((0x2D, 0x20), .sub),
    ((0x2A, 0x20), .mul),
    ((0x2F, 0x20), .div),
    ((0x26, 0x20), .and),
    ((0x7C, 0x20), .or),
    ((0x5E, 0x20), .xor),
    ((0x3E, 0x20), .shr),
    ((0x3C, 0x20), .shl),
    ((0x3F, 0x3D), .ceq),
    ((0x3F, 0x3E), .cgt),
    ((0x3F, 0x3C), .clt),
    ((0x3F, 0x21), .cne),
    ((0x53, 0x20), .sys),
    ((0x4A, 0x20), fun a _ => .jmp a),
    ((0x3D, 0x7B), fun _ _ => .rsvLd16),
    ((0x7B, 0x3D), fun _ _ => .rsvSt16) ]

/-- The twelve conditional rows, `op2 = '?'` (rules R66, R96 to R107). -/
def condRows : List ((Byte × Byte) × (RegIdx → RegIdx → Instr)) :=
  [ ((0x3D, 0x3F), .movQ),
    ((0x2B, 0x3F), .addQ),
    ((0x2D, 0x3F), .subQ),
    ((0x2A, 0x3F), .mulQ),
    ((0x2F, 0x3F), .divQ),
    ((0x26, 0x3F), .andQ),
    ((0x7C, 0x3F), .orQ),
    ((0x5E, 0x3F), .xorQ),
    ((0x3E, 0x3F), .shrQ),
    ((0x3C, 0x3F), .shlQ),
    ((0x53, 0x3F), .sysQ),
    ((0x4A, 0x3F), fun a _ => .jmpQ a) ]

/-- Every four-byte row. -/
def shortRows : List ((Byte × Byte) × (RegIdx → RegIdx → Instr)) := plainRows ++ condRows

/-- Whether the pair selects a form with four extension bytes (rules R51, R68). -/
def hasExtension (op1 op2 : Byte) : Bool := (longRows.lookup (op1, op2)).isSome

/-! ### Decoding -/

/-- Why a list of bytes is no instruction. -/
inductive DecodeError where
  /-- fewer than the four bytes of a window (rule R49) -/
  | windowIncomplete
  /-- a form of rule R50 with extension bytes, and fewer than four of them -/
  | extensionIncomplete
  /-- the pair `(op1, op2)` selects no row of the opcode map (rules R55, R63) -/
  | invalidOpcode (op1 op2 : Byte)
deriving DecidableEq, Repr

/-- The instruction at the head of a list of bytes (rules R49 to R62). The pair `(op1, op2)` alone selects
the row, all eight bits of both taking part; bytes past the instruction are not looked at. -/
def decode : List Byte → Except DecodeError Instr
  | op1 :: op2 :: op3 :: op4 :: rest =>
    match longRows.lookup (op1, op2) with
    | some build =>
      match rest with
      | e0 :: e1 :: e2 :: e3 :: _ => .ok (build (regName op3) (regName op4) e0 e1 e2 e3)
      | _ => .error .extensionIncomplete
    | none =>
      match shortRows.lookup (op1, op2) with
      | some build => .ok (build (regName op3) (regName op4))
      | none => .error (.invalidOpcode op1 op2)
  | _ => .error .windowIncomplete

/-! ### Encoding -/

/-- The length of an instruction in bytes (rules R50, R51). -/
def Instr.byteLength : Instr → Nat
  | .ldh .. => 8
  | .ldi .. => 8
  | .sysx .. => 8
  | _ => 4

/-- The window `(op1, op2, op3, op4)` with two register names (rule R49). -/
def window (op1 op2 : Byte) (a b : RegIdx) : List Byte := [op1, op2, regChar a, regChar b]

/-- The window of a form that ignores `op4`; the spec's listings put a space there (rule R65). -/
def window1 (op1 op2 : Byte) (a : RegIdx) : List Byte := [op1, op2, regChar a, spaceByte]

/-- The bytes of an instruction in stream order (rules R49, R50, R62). -/
def encode : Instr → List Byte
  | .ldh a h0 h1 h2 h3 => window1 0x3D 0x23 a ++ [h0, h1, h2, h3]
  | .mov a b => window 0x3D 0x20 a b
  | .ldi a v => window1 0x3D 0x24 a ++ leBytes 4 v
  | .ldb a b => window 0x3D 0x5B a b
  | .ldw a b => window 0x3D 0x28 a b
  | .stb a b => window 0x5B 0x3D a b
  | .stw a b => window 0x28 0x3D a b
  | .add a b => window 0x2B 0x20 a b
  | .sub a b => window 0x2D 0x20 a b
  | .mul a b => window 0x2A 0x20 a b
  | .div a b => window 0x2F 0x20 a b
  | .and a b => window 0x26 0x20 a b
  | .or a b => window 0x7C 0x20 a b
  | .xor a b => window 0x5E 0x20 a b
  | .shr a b => window 0x3E 0x20 a b
  | .shl a b => window 0x3C 0x20 a b
  | .ceq a b => window 0x3F 0x3D a b
  | .cgt a b => window 0x3F 0x3E a b
  | .clt a b => window 0x3F 0x3C a b
  | .cne a b => window 0x3F 0x21 a b
  | .sys a b => window 0x53 0x20 a b
  | .sysx a b r2 r3 r4 r5 =>
      window 0x53 0x2B a b ++ [regChar r2, regChar r3, regChar r4, regChar r5]
  | .jmp a => window1 0x4A 0x20 a
  | .movQ a b => window 0x3D 0x3F a b
  | .addQ a b => window 0x2B 0x3F a b
  | .subQ a b => window 0x2D 0x3F a b
  | .mulQ a b => window 0x2A 0x3F a b
  | .divQ a b => window 0x2F 0x3F a b
  | .andQ a b => window 0x26 0x3F a b
  | .orQ a b => window 0x7C 0x3F a b
  | .xorQ a b => window 0x5E 0x3F a b
  | .shrQ a b => window 0x3E 0x3F a b
  | .shlQ a b => window 0x3C 0x3F a b
  | .sysQ a b => window 0x53 0x3F a b
  | .jmpQ a => window1 0x4A 0x3F a
  | .rsvLd16 => [0x3D, 0x7B, spaceByte, spaceByte]
  | .rsvSt16 => [0x7B, 0x3D, spaceByte, spaceByte]

/-! ### The opcode table's numbering -/

/-- The four bytes of one word in the `W` notation of rule R56, the first byte of the stream most
significant. -/
def tableWordBytes (w : Nat) : List Byte :=
  [BitVec.ofNat 8 (w / 2 ^ 24), BitVec.ofNat 8 (w / 2 ^ 16), BitVec.ofNat 8 (w / 2 ^ 8), BitVec.ofNat 8 w]

/-- The eight bytes of the instruction numbered `w` on `nbits` bits, as they lie in memory: the window is
the word of bits 31 to 0 and the extension bytes the word of bits 63 to 32 (rule R56; DEDUCED, log entry 3, unsafe for a reader of
the number, safe for the machine). Bits
from `nbits` on are 0. -/
def tableBytes (nbits w : Nat) : List Byte :=
  tableWordBytes (w % 2 ^ nbits) ++ tableWordBytes (w % 2 ^ nbits / 2 ^ 32)

/-- What the decoder reads from an instruction given as the opcode table numbers its bits. -/
def decodeTableWord (nbits w : Nat) : Option Instr :=
  match decode (tableBytes nbits w) with
  | .ok i => some i
  | .error _ => none

end Sys2Proof
end

