-- ==== Sys2Proof/Config.lean ====
section
/-! DEFINITION. What this hardware fixes (spec rules R6, R7) and the free values the spec leaves open:
`any32()` (rule R11, R59) and the answers of the host behind the Syscall Bridge (rule R116). The free
values are constants without a body, so nothing can be proved of what they are. -/

namespace Sys2Proof

/-- The `whence` argument of a host `lseek`. The spec passes only `SEEK_SET` (rule R120). -/
inductive Whence where
  /-- the offset counts from the start of the file (rule R120) -/
  | seekSet
deriving DecidableEq, Repr, Inhabited

/-- One answer of the host to one call: the 32-bit result and, for a `read`, the bytes delivered
(rules R115 to R121). The bridge brings an answer to the shape its rule gives before it uses it
(`Machine/Bridge.lean`). -/
structure HostAnswer where
  /-- the host's result; negative exactly when bit 31 is set (rule R115) -/
  ret : Word
  /-- the bytes a `read` delivers, or left behind by a `read` that failed (rule R118, U12) -/
  data : List Byte
deriving DecidableEq, Repr, Inhabited

/-- `MEM_SIZE`, the capacity of the Memory Image in bytes (rule R6, D22). -/
def Config.memSize : Nat := 65536

/-- `FATAL_EXIT_CODE`, the halt code of every fatal fault (rule R7, D4). -/
def Config.fatalExitCode : Word := 1

/-- `SHIFT_GE32 = zero`: what `>` and `<` give for a count of 32 or more (rule R7, D8). -/
def Config.shiftGe32 : Word := 0

/-- `LSEEK_WHENCE_NONZERO = SEEK_SET`: the whence syscall 3 uses when `arg3` is not 0
(rules R7, R120, D15). -/
def Config.lseekWhenceNonzero : Whence := .seekSet

/-- The mode `open` is asked with: `0777` octal, decimal 511 (rule R117; the octal reading is the
spec's G4, from general knowledge). -/
def Config.openMode : Nat := 511

/-- FREE VALUE (DESIGN CHOICE, log entry 1, safe). The `n`-th value drawn by `any32()`: "a 32-bit value the rule does not
fix; the model draws it freely at each use" (rule R11). -/
opaque Config.any32 : Nat → Word

/-- FREE VALUE (DESIGN CHOICE, log entry 2, safe). What the host answers to the `n`-th call made of it when the state holds
no answer for it (`State.hostAnswers`): "The host is an oracle" (rule R116). -/
opaque Config.hostAnswer : Nat → HostAnswer

end Sys2Proof
end

