-- ==== Sys2Proof/Machine/State.lean ====
section
/-! DEFINITION. The state of the core as plain data (spec rules R13 to R28), the state after reset
(rule R26), and the reasons a step can stop. -/

namespace Sys2Proof.Machine

/-- `run_state`, the two states of the engine (rules R22, R129). -/
inductive RunState where
  /-- `FETCH` (0): the core runs -/
  | fetch
  /-- `HALTED` (1): terminal, left only by reset -/
  | halted
deriving DecidableEq, Repr

/-- `fault_kind` (rules R22, R130). -/
inductive FaultKind where
  /-- `NONE` (0): no fault has occurred -/
  | none
  /-- `INVALID_OPCODE` (1) -/
  | invalidOpcode
  /-- `INVALID_SYSCALL` (2) -/
  | invalidSyscall
  /-- `OUT_OF_BOUNDS` (3) -/
  | outOfBounds
  /-- `DIVIDE_BY_ZERO` (4) -/
  | divideByZero
deriving DecidableEq, Repr

/-- A fatal fault with the `info` the diagnostic is offered (table of rule R130). Only the kind becomes
state (rule R131; DEDUCED, log entry 12, safe). -/
inductive FaultCause where
  /-- dispatch found no row for the normalised pair (rules R55, R63) -/
  | invalidOpcode (op1 op2 : Byte)
  /-- syscall number 6 or above 7 (rule R124) -/
  | invalidSyscall (n : Word)
  /-- some byte of an access at `addr` lies at or beyond `MEM_SIZE` (rule R36) -/
  | outOfBounds (addr : Word)
  /-- the divisor of the `DIV` whose window is at `window` is 0 (rule R84) -/
  | divideByZero (window : Word)
deriving DecidableEq, Repr

/-- One call the bridge makes of the host, with what it hands over (rules R117 to R121). -/
inductive HostCall where
  /-- `HOST.open(path, flags, mode)` (rule R117) -/
  | openFile (path : List Byte) (flags : Word) (mode : Nat)
  /-- `HOST.read(fd, count)` (rule R118) -/
  | read (fd count : Word)
  /-- `HOST.write(fd, bytes)` (rule R119) -/
  | write (fd : Word) (bytes : List Byte)
  /-- `HOST.lseek(fd, offset, whence)` (rule R120) -/
  | lseek (fd offset : Word) (whence : Whence)
  /-- `HOST.close(fd)` (rule R121) -/
  | close (fd : Word)
deriving DecidableEq, Repr

/-- The Memory Image (rule R23), kept sparse: (address, byte) pairs in the canonical form `Memory.wf`
(`Machine/Ops.lean`). An address that is not listed reads as 0, the value the spec gives memory outside
the program image at reset (rule R26). The representation is the model's (DESIGN CHOICE, log entry 9,
safe). -/
abbrev Memory := List Host.Cell

/-- The state of the core. The first six fields are the tuple of rule R28; the last four are the model's
own and stand for what lies outside the core (rules R7, R25, R116). -/
structure State where
  /-- the register file; `x[63]` is the program counter (rules R13, R17) -/
  x : Vector Word 64
  /-- the condition flag (rule R20) -/
  flag : Bool
  /-- the Memory Image (rule R23) -/
  mem : Memory
  /-- `run_state` (rule R22) -/
  runState : RunState
  /-- `fault_kind` (rule R22) -/
  faultKind : FaultKind
  /-- `halt_code` (rule R22) -/
  haltCode : Word
  /-- `GUEST_ARGV`, an input fixed before the run (rules R7, R25, R122) -/
  guestArgv : List (List Byte)
  /-- the answers the host will give to the next calls, the first one first; when none is left the
  answers are the free values `Config.hostAnswer` (rule R116; DESIGN CHOICE, log entry 2, safe) -/
  hostAnswers : List HostAnswer
  /-- the calls made of the host so far, the oldest first (rule R9; DESIGN CHOICE, log entry 4, safe) -/
  hostCalls : List HostCall
  /-- how many values `any32()` has given so far (rule R11; DESIGN CHOICE, log entry 1, safe) -/
  anyDraws : Nat
deriving DecidableEq, Repr

/-- The machine right after reset with an empty program image (rules R26, R149, R150). `haltCode` has no
value in the spec while the core fetches; 0 is the model's (DESIGN CHOICE, log entry 5, unsafe). The empty
argument vector is the model's too (DESIGN CHOICE, log entry 7, unsafe). No program is in memory: one is
loaded from outside (DEDUCED, log entry 8, safe). -/
def State.reset : State where
  x := Vector.replicate 64 0
  flag := false
  mem := []
  runState := .fetch
  faultKind := .none
  haltCode := 0
  guestArgv := []
  hostAnswers := []
  hostCalls := []
  anyDraws := 0

/-- Why a step can stop with a fault of the MODEL. A fatal fault of the core is not one of these: it is
the transition to `HALTED` (rules R129, R132), a next state. -/
inductive Fault where
  /-- raised by `step` alone, when `run_state = HALTED`: "A state with `run_state = HALTED` has no step"
  (rules R28, R129, U21). DEDUCED, log entry 11. Safe: the spec gives no step either. -/
  | halted
deriving DecidableEq, Repr

/-- Why a step can be refused. -/
inductive Refusal where
  /-- raised by an arm of `exec` whose instruction has no meaning in the model. Safe: it claims nothing of
  the instruction. No arm raises it. -/
  | notModelled (mnemonic : String)
deriving DecidableEq, Repr

/-- The outcome of a step or of an instruction. -/
abbrev Result := Host.Outcome State Fault Refusal

end Sys2Proof.Machine
end

