-- ==== Sys2Proof/Machine/Ops.lean ====
section
/-! DEFINITION. The named operations over registers and memory (spec rules R11, R29 to R36) and the two
ways a run ends: `raise`, taking a fatal fault (rule R132), and `halt`, the guest's exit (rule R136). There
is no return from a fault (rule R139). -/

namespace Sys2Proof.Machine

/-! ### Registers -/

/-- `x[i]` (rule R11). -/
def State.reg (s : State) (i : RegIdx) : Word := s.x.get i

/-- `x[i] <- v` (rule R11). No register is hard-wired (rule R15). -/
def State.setReg (s : State) (i : RegIdx) (v : Word) : State := { s with x := s.x.set i v }

/-- `pc`, another name for `x[63]` (rules R11, R17). -/
def State.pc (s : State) : Word := s.reg pcIndex

/-- `pc <- v` (rule R11). -/
def State.setPc (s : State) (v : Word) : State := s.setReg pcIndex v

/-- `pc <- (pc + 4) mod 2^32`: the base advance (rule R53) and the extension advance of `LDH`, `LDI` and
`SYSX` (rule R18). -/
def State.advance (s : State) : State := s.setPc (s.pc + 4)

/-- `flag <- v` (rule R11). -/
def State.setFlag (s : State) (v : Bool) : State := { s with flag := v }

/-- The state with another Memory Image. -/
def State.setMem (s : State) (m : Memory) : State := { s with mem := m }

/-- `any32()` (rule R11): a value nothing fixes, a new one at each use (log entry 1). -/
def State.any32 (s : State) : Word := Config.any32 s.anyDraws

/-- Counts one use of `any32()`. -/
def State.drawAny (s : State) : State := { s with anyDraws := s.anyDraws + 1 }

/-! ### Taking a fatal fault, and the guest's exit -/

/-- The kind a fatal fault records (rule R130). -/
def FaultCause.kind : FaultCause → FaultKind
  | .invalidOpcode _ _ => .invalidOpcode
  | .invalidSyscall _ => .invalidSyscall
  | .outOfBounds _ => .outOfBounds
  | .divideByZero _ => .divideByZero

/-- The numeric code of a fault kind (rule R130). -/
def FaultKind.code : FaultKind → Nat
  | .none => 0
  | .invalidOpcode => 1
  | .invalidSyscall => 2
  | .outOfBounds => 3
  | .divideByZero => 4

/-- `raise Kind(info)` (rule R132): taking a fatal fault. Registers, `pc`, `flag` and memory keep the
values they have. -/
def State.raise (s : State) (c : FaultCause) : State :=
  { s with faultKind := c.kind, haltCode := Config.fatalExitCode, runState := .halted }

/-- `halt(code)` (rule R136): the guest's exit. `fault_kind` is not written. -/
def State.halt (s : State) (code : Word) : State :=
  { s with haltCode := code, runState := .halted }

/-! ### The Memory Image -/

/-- The byte at an address (rule R23). An address that is not listed reads as 0 (rule R26). -/
def Memory.readByte : Memory → Nat → Byte
  | [], _ => 0
  | (b, v) :: rest, a => if a = b then v else Memory.readByte rest a

/-- The memory without a cell for `a`: there it reads as 0. -/
def Memory.erase : Memory → Nat → Memory
  | [], _ => []
  | (b, w) :: rest, a => if a = b then Memory.erase rest a else (b, w) :: Memory.erase rest a

/-- A cell put at its place among rising addresses; used where no cell has its address. -/
def Memory.insert : Memory → Nat → Byte → Memory
  | [], a, v => [(a, v)]
  | (b, w) :: rest, a, v =>
    if a < b then (a, v) :: (b, w) :: rest else (b, w) :: Memory.insert rest a v

/-- Writes one byte, keeping the canonical form: a cell that would hold what an unlisted address reads as
is left out. -/
def Memory.writeByte (m : Memory) (a : Nat) (v : Byte) : Memory :=
  if v = 0 then m.erase a else (m.erase a).insert a v

/-- The `n` bytes from `a` up, in ascending address order. -/
def Memory.readBytes (m : Memory) (a : Nat) : Nat → List Byte
  | 0 => []
  | n + 1 => m.readByte a :: Memory.readBytes m (a + 1) n

/-- Writes bytes from `a` up, in ascending address order. -/
def Memory.writeBytes (m : Memory) (a : Nat) : List Byte → Memory
  | [] => m
  | b :: bs => Memory.writeBytes (m.writeByte a b) (a + 1) bs

/-- The canonical form: addresses strictly rising, every one below `MEM_SIZE` (rule R29), and no cell
that holds 0, so that equal memories are equal lists. -/
def Memory.wf : Memory → Bool
  | [] => true
  | [(a, v)] => decide (a < Config.memSize) && decide (v ≠ 0)
  | (a, v) :: (b, w) :: rest =>
    decide (a < b) && decide (v ≠ 0) && Memory.wf ((b, w) :: rest)

/-- The bounds check on the range `[a, a + n)`, an unbounded sum (rules R33 to R36, R114). -/
def inBounds (a : Word) (n : Nat) : Bool := decide (a.toNat + n ≤ Config.memSize)

/-- `MemRead(addr, n)` (rule R33), `none` where it raises `OutOfBounds(addr)`. -/
def State.memRead (s : State) (a : Word) (n : Nat) : Option Word :=
  if inBounds a n then some (BitVec.ofNat 32 (leNat (s.mem.readBytes a.toNat n))) else none

/-- `MemWrite(addr, n, v)` (rule R34), `none` where it raises `OutOfBounds(addr)`: all `n` bytes are
written or none is. -/
def State.memWrite (s : State) (a : Word) (n : Nat) (v : Word) : Option State :=
  if inBounds a n then some (s.setMem (s.mem.writeBytes a.toNat (leBytes n v))) else none

/-- `FetchBytes(addr, 4)` (rule R35), `none` where it raises `OutOfBounds(addr)`. -/
def State.fetchBytes (s : State) (a : Word) : Option (Byte × Byte × Byte × Byte) :=
  if inBounds a 4 then
    some (s.mem.readByte a.toNat, s.mem.readByte (a.toNat + 1), s.mem.readByte (a.toNat + 2),
      s.mem.readByte (a.toNat + 3))
  else none

end Sys2Proof.Machine
end

