-- ==== Sys2Proof/Machine/Operands.lean ====
section
/-! DEFINITION. The values the operand forms give and the results of the ALU (spec rules R58, R59, R80 to
R89), and the shared shapes of the instructions that use them. -/

namespace Sys2Proof.Machine

/-! ### The literal of `LDH` -/

/-- `HexVal` (rule R58), `none` for `BAD`. Lower-case letters are no digits. -/
def hexVal (c : Byte) : Option Nat :=
  if 0x30 ≤ c.toNat ∧ c.toNat ≤ 0x39 then some (c.toNat - 0x30)
  else if 0x41 ≤ c.toNat ∧ c.toNat ≤ 0x46 then some (c.toNat - 0x41 + 10)
  else none

/-- `HexLit` (rule R59), `none` where a digit is `BAD` and the value is `any32()`. -/
def hexLit (h0 h1 h2 h3 : Byte) : Option Word :=
  match hexVal h0, hexVal h1, hexVal h2, hexVal h3 with
  | some d0, some d1, some d2, some d3 =>
    some (BitVec.ofNat 32 (4096 * d0 + 256 * d1 + 16 * d2 + d3))
  | _, _, _, _ => none

/-! ### ALU results, all modulo `2^32` on unsigned values (rule R80) -/

/-- rule R81 -/
def aluAdd (x y : Word) : Word := x + y
/-- rule R82 -/
def aluSub (x y : Word) : Word := x - y
/-- rule R83: the low 32 bits of the product -/
def aluMul (x y : Word) : Word := x * y
/-- rule R84: unsigned, rounding toward zero; used with a divisor that is not 0 -/
def aluDiv (x y : Word) : Word := x / y
/-- rule R85 -/
def aluAnd (x y : Word) : Word := x &&& y
/-- rule R86 -/
def aluOr (x y : Word) : Word := x ||| y
/-- rule R87 -/
def aluXor (x y : Word) : Word := x ^^^ y
/-- rule R88: logical, the count not masked -/
def aluShr (x n : Word) : Word := if 32 ≤ n.toNat then Config.shiftGe32 else x >>> n.toNat
/-- rule R89: the count not masked -/
def aluShl (x n : Word) : Word := if 32 ≤ n.toNat then Config.shiftGe32 else x <<< n.toNat

/-! ### Shapes of instructions -/

/-- A two-register form that cannot fault: `x[a] <- f(x[a], x[b])`, both operands read before the result
is written (rule R80). -/
def aluForm (f : Word → Word → Word) (a b : RegIdx) (s : State) : State :=
  s.setReg a (f (s.reg a) (s.reg b))

/-- The division form (rule R84): a zero divisor raises `DivideByZero(A)`, with `A` the address of the
window, which is `pc - 4` while the form executes (rule R18). -/
def divForm (a b : RegIdx) (s : State) : State :=
  if s.reg b = 0 then s.raise (.divideByZero (s.pc - 4))
  else s.setReg a (aluDiv (s.reg a) (s.reg b))

/-- `x[a] <- x[b]` (rule R73). -/
def moveForm (a b : RegIdx) (s : State) : State := s.setReg a (s.reg b)

/-- `pc <- x[a]` (rule R127). The target is not checked here. -/
def jumpForm (a : RegIdx) (s : State) : State := s.setPc (s.reg a)

/-- A load of `n` bytes from `x[b]` (rules R75 to R77). -/
def loadForm (n : Nat) (a b : RegIdx) (s : State) : State :=
  match s.memRead (s.reg b) n with
  | some v => s.setReg a v
  | none => s.raise (.outOfBounds (s.reg b))

/-- A store of the low `n` bytes of `x[b]` at `x[a]` (rules R75, R78, R79). -/
def storeForm (n : Nat) (a b : RegIdx) (s : State) : State :=
  match s.memWrite (s.reg a) n (s.reg b) with
  | some s' => s'
  | none => s.raise (.outOfBounds (s.reg a))

/-- The conditional forms (rule R95): nothing when the flag is 0, the unmarked form when it is 1. -/
def whenFlag (form : State → State) (s : State) : State := if s.flag then form s else s

end Sys2Proof.Machine
end

