-- ==== Sys2Proof/Machine/Alu.lean ====
section
/-! DEFINITION. The nine ALU forms (spec rules R80 to R89). -/

namespace Sys2Proof.Machine

/-- `ADD` (rule R81). -/
def execAdd (a b : RegIdx) (s : State) : Result := .next (aluForm aluAdd a b s)

/-- `SUB` (rule R82). -/
def execSub (a b : RegIdx) (s : State) : Result := .next (aluForm aluSub a b s)

/-- `MUL` (rule R83). -/
def execMul (a b : RegIdx) (s : State) : Result := .next (aluForm aluMul a b s)

/-- `DIV` (rule R84). -/
def execDiv (a b : RegIdx) (s : State) : Result := .next (divForm a b s)

/-- `AND` (rule R85). -/
def execAnd (a b : RegIdx) (s : State) : Result := .next (aluForm aluAnd a b s)

/-- `OR` (rule R86). -/
def execOr (a b : RegIdx) (s : State) : Result := .next (aluForm aluOr a b s)

/-- `XOR` (rule R87). -/
def execXor (a b : RegIdx) (s : State) : Result := .next (aluForm aluXor a b s)

/-- `SHR` (rule R88). -/
def execShr (a b : RegIdx) (s : State) : Result := .next (aluForm aluShr a b s)

/-- `SHL` (rule R89). -/
def execShl (a b : RegIdx) (s : State) : Result := .next (aluForm aluShl a b s)

end Sys2Proof.Machine
end

