-- ==== Sys2Proof/Machine/Flags.lean ====
section
/-! DEFINITION. The four relations that compute the condition flag (spec rules R90 to R94). They compare
32-bit unsigned values. No other operation computes a flag (rule R21). -/

namespace Sys2Proof.Machine

/-- rule R91 -/
def flagEq (x y : Word) : Bool := decide (x = y)
/-- rule R92, unsigned -/
def flagGt (x y : Word) : Bool := decide (y.toNat < x.toNat)
/-- rule R93, unsigned -/
def flagLt (x y : Word) : Bool := decide (x.toNat < y.toNat)
/-- rule R94 -/
def flagNe (x y : Word) : Bool := decide (x ≠ y)

/-- A compare (rule R90): `flag <- rel(x[a], x[b])`, whatever it held, and nothing else. -/
def compareForm (rel : Word → Word → Bool) (a b : RegIdx) (s : State) : State :=
  s.setFlag (rel (s.reg a) (s.reg b))

end Sys2Proof.Machine
end

