-- ==== Sys2Proof/Machine/Compare.lean ====
section
/-! DEFINITION. The four compares (spec rules R90 to R94). -/

namespace Sys2Proof.Machine

/-- `CEQ` (rule R91). -/
def execCeq (a b : RegIdx) (s : State) : Result := .next (compareForm flagEq a b s)

/-- `CGT` (rule R92). -/
def execCgt (a b : RegIdx) (s : State) : Result := .next (compareForm flagGt a b s)

/-- `CLT` (rule R93). -/
def execClt (a b : RegIdx) (s : State) : Result := .next (compareForm flagLt a b s)

/-- `CNE` (rule R94). -/
def execCne (a b : RegIdx) (s : State) : Result := .next (compareForm flagNe a b s)

end Sys2Proof.Machine
end

