-- ==== Sys2Proof/Machine/Bridge.lean ====
section
/-! DEFINITION. The Syscall Bridge (spec rules R112 to R126): one synchronous call with a number and five
arguments. It changes no register, no flag and no `pc`; it reads memory, and writes it only in `read` and
`getargv`. -/

namespace Sys2Proof.Machine

/-- The six values of one call (rule R112). -/
structure SyscallArgs where
  /-- the syscall number, all 32 bits -/
  n : Word
  a1 : Word
  a2 : Word
  a3 : Word
  a4 : Word
  a5 : Word
deriving DecidableEq, Repr

/-- What the bridge answers (rule R112). -/
inductive BridgeAnswer where
  /-- `Return(v)` -/
  | ret (v : Word)
  /-- `Halt(code)` -/
  | halt (code : Word)
  /-- `Fatal(kind)`, with the `info` of rule R113 -/
  | fatal (c : FaultCause)
deriving DecidableEq, Repr

/-! ### The host (rules R115, R116) -/

/-- A result reports a failure exactly when bit 31 is set (rule R115). -/
def isNegative (v : Word) : Bool := v.msb

/-- The host's answer to the next call: the first one the state holds, or a free value. -/
def State.nextAnswer (s : State) : HostAnswer :=
  match s.hostAnswers with
  | ans :: _ => ans
  | [] => Config.hostAnswer s.hostCalls.length

/-- The state after a call of the host: its answer is used up and the call is recorded. The call answers
within the step (DESIGN CHOICE, log entry 13, unsafe for a host that blocks). -/
def State.askHost (s : State) (c : HostCall) : State :=
  { s with hostAnswers := s.hostAnswers.tail, hostCalls := s.hostCalls ++ [c] }

/-- The result of a `write` of `count` bytes: negative, or `0 … count` (rule R119). -/
def writeResult (ans : HostAnswer) (count : Word) : Word :=
  if isNegative ans.ret then ans.ret else BitVec.ofNat 32 (min ans.ret.toNat count.toNat)

/-- The result of a `close`: negative or 0 (rule R121). -/
def closeResult (ans : HostAnswer) : Word := if isNegative ans.ret then ans.ret else 0

/-- The bytes a `read` of `count` bytes writes: those delivered, no more than `count` and than the
result says; for a failed `read` whatever it left in the window (rule R118, U12). -/
def readData (ans : HostAnswer) (count : Word) : List Byte :=
  if isNegative ans.ret then ans.data.take count.toNat
  else ans.data.take (min ans.ret.toNat count.toNat)

/-- The result of a `read` of `count` bytes: negative, or the number of bytes delivered, `0 … count`
(rule R118). -/
def readResult (ans : HostAnswer) (count : Word) : Word :=
  if isNegative ans.ret then ans.ret else BitVec.ofNat 32 (readData ans count).length

/-! ### Buffers (rule R114) -/

/-- The bytes from `a` up to, not including, the first zero byte, looking at no more than `fuel` bytes;
`none` if none of them is 0. -/
def Memory.cString (m : Memory) (a : Nat) : Nat → Option (List Byte)
  | 0 => none
  | fuel + 1 =>
    if m.readByte a = 0 then some []
    else
      match Memory.cString m (a + 1) fuel with
      | some rest => some (m.readByte a :: rest)
      | none => none

/-- The NUL-terminated string at an offset, `none` if no zero byte is found before `MEM_SIZE` or the
offset is not below `MEM_SIZE` (rule R114). -/
def State.pathAt (s : State) (off : Word) : Option (List Byte) :=
  s.mem.cString off.toNat (Config.memSize - off.toNat)

/-! ### The argument vector (rule R122) -/

/-- The bytes `getargv` needs: the offset array with its sentinel, then the strings with their NULs. -/
def argvRequired (argv : List (List Byte)) : Nat :=
  4 * (argv.length + 1) + (argv.map fun g => g.length + 1).sum

/-- The offset array: the address of each string in order, little-endian, ended by a zero word; `start`
is the address of the first string. -/
def argvOffsets (start : Nat) : List (List Byte) → List Byte
  | [] => leBytes 4 0
  | g :: gs => leBytes 4 (BitVec.ofNat 32 start) ++ argvOffsets (start + g.length + 1) gs

/-- The strings back to back, each ended by a zero byte. -/
def argvStrings : List (List Byte) → List Byte
  | [] => []
  | g :: gs => g ++ 0 :: argvStrings gs

/-- The whole block `getargv` writes at `base`. -/
def argvBlock (base : Nat) (argv : List (List Byte)) : List Byte :=
  argvOffsets (base + 4 * (argv.length + 1)) argv ++ argvStrings argv

/-! ### The syscalls -/

/-- Syscall 0, `open` (rule R117). -/
def sysOpen (q : SyscallArgs) (s : State) : BridgeAnswer × State :=
  match s.pathAt q.a1 with
  | some path => (.ret s.nextAnswer.ret, s.askHost (.openFile path q.a2 Config.openMode))
  | none => (.fatal (.outOfBounds q.a1), s)

/-- Syscall 1, `read` (rule R118). -/
def sysRead (q : SyscallArgs) (s : State) : BridgeAnswer × State :=
  if inBounds q.a2 q.a3.toNat then
    (.ret (readResult s.nextAnswer q.a3),
      (s.askHost (.read q.a1 q.a3)).setMem
        (s.mem.writeBytes q.a2.toNat (readData s.nextAnswer q.a3)))
  else (.fatal (.outOfBounds q.a2), s)

/-- Syscall 2, `write` (rule R119). -/
def sysWrite (q : SyscallArgs) (s : State) : BridgeAnswer × State :=
  if inBounds q.a2 q.a3.toNat then
    (.ret (writeResult s.nextAnswer q.a3),
      s.askHost (.write q.a1 (s.mem.readBytes q.a2.toNat q.a3.toNat)))
  else (.fatal (.outOfBounds q.a2), s)

/-- The whence of syscall 3 (rule R120). -/
def lseekWhence (a3 : Word) : Whence := if a3 = 0 then .seekSet else Config.lseekWhenceNonzero

/-- Syscall 3, `lseek` (rule R120). -/
def sysLseek (q : SyscallArgs) (s : State) : BridgeAnswer × State :=
  (.ret s.nextAnswer.ret, s.askHost (.lseek q.a1 q.a2 (lseekWhence q.a3)))

/-- Syscall 4, `close` (rule R121). -/
def sysClose (q : SyscallArgs) (s : State) : BridgeAnswer × State :=
  (.ret (closeResult s.nextAnswer), s.askHost (.close q.a1))

/-- Syscall 5, `getargv` (rule R122): the capacity test first, then the bounds. -/
def sysGetargv (q : SyscallArgs) (s : State) : BridgeAnswer × State :=
  let required := argvRequired s.guestArgv
  if q.a2.toNat < required then (.ret (BitVec.ofNat 32 required), s)
  else if inBounds q.a1 required then
    (.ret (BitVec.ofNat 32 required),
      s.setMem (s.mem.writeBytes q.a1.toNat (argvBlock q.a1.toNat s.guestArgv)))
  else (.fatal (.outOfBounds q.a1), s)

/-- `Bridge(n, a1, a2, a3, a4, a5)` (rule R112): `n` selects by its full 32-bit value; every number but
0 to 5 and 7 is invalid (rule R124). -/
def bridge (q : SyscallArgs) (s : State) : BridgeAnswer × State :=
  match q.n.toNat with
  | 0 => sysOpen q s
  | 1 => sysRead q s
  | 2 => sysWrite q s
  | 3 => sysLseek q s
  | 4 => sysClose q s
  | 5 => sysGetargv q s
  | 7 => (.halt q.a1, s)
  | _ => (.fatal (.invalidSyscall q.n), s)

/-- `Complete(a, r)` (rule R113). -/
def complete (a : RegIdx) (r : BridgeAnswer) (s : State) : State :=
  match r with
  | .ret v => s.setReg a v
  | .halt code => s.halt code
  | .fatal c => s.raise c

/-- One syscall: the bridge, then the completion (rules R110, R111). -/
def syscallForm (a : RegIdx) (q : SyscallArgs) (s : State) : State :=
  complete a (bridge q s).1 (bridge q s).2

end Sys2Proof.Machine
end

