-- ==== Sys2Proof/Machine/Syscall.lean ====
section
/-! DEFINITION. `SYS` and `SYSX` (spec rules R110, R111). -/

namespace Sys2Proof.Machine

/-- The six values of a two-value syscall: the number from `x[a]`, the first argument from `x[b]`, the
other four 0 (rule R110). -/
def sysArgs (a b : RegIdx) (s : State) : SyscallArgs := ⟨s.reg a, s.reg b, 0, 0, 0, 0⟩

/-- `SYS` (rule R110). -/
def execSys (a b : RegIdx) (s : State) : Result := .next (syscallForm a (sysArgs a b s) s)

/-- `SYSX` (rule R111): all six values are read before the bridge runs. -/
def execSysx (a b r2 r3 r4 r5 : RegIdx) (s : State) : Result :=
  let t := s.advance
  .next (syscallForm a ⟨t.reg a, t.reg b, t.reg r2, t.reg r3, t.reg r4, t.reg r5⟩ t)

end Sys2Proof.Machine
end

