-- ==== Sys2Proof/Machine/Conditional.lean ====
section
/-! DEFINITION. The twelve conditional forms (spec rules R95 to R107). -/

namespace Sys2Proof.Machine

/-- `MOV?` (rule R96). -/
def execMovQ (a b : RegIdx) (s : State) : Result := .next (whenFlag (moveForm a b) s)

/-- `ADD?` (rule R97). -/
def execAddQ (a b : RegIdx) (s : State) : Result := .next (whenFlag (aluForm aluAdd a b) s)

/-- `SUB?` (rule R98). -/
def execSubQ (a b : RegIdx) (s : State) : Result := .next (whenFlag (aluForm aluSub a b) s)

/-- `MUL?` (rule R99). -/
def execMulQ (a b : RegIdx) (s : State) : Result := .next (whenFlag (aluForm aluMul a b) s)

/-- `DIV?` (rule R100): a skipped division does not fault. -/
def execDivQ (a b : RegIdx) (s : State) : Result := .next (whenFlag (divForm a b) s)

/-- `AND?` (rule R101). -/
def execAndQ (a b : RegIdx) (s : State) : Result := .next (whenFlag (aluForm aluAnd a b) s)

/-- `OR?` (rule R102). -/
def execOrQ (a b : RegIdx) (s : State) : Result := .next (whenFlag (aluForm aluOr a b) s)

/-- `XOR?` (rule R103). -/
def execXorQ (a b : RegIdx) (s : State) : Result := .next (whenFlag (aluForm aluXor a b) s)

/-- `SHR?` (rule R104). -/
def execShrQ (a b : RegIdx) (s : State) : Result := .next (whenFlag (aluForm aluShr a b) s)

/-- `SHL?` (rule R105). -/
def execShlQ (a b : RegIdx) (s : State) : Result := .next (whenFlag (aluForm aluShl a b) s)

/-- `SYS?` (rule R106): a skipped syscall calls nothing. -/
def execSysQ (a b : RegIdx) (s : State) : Result :=
  .next (whenFlag (syscallForm a (sysArgs a b s)) s)

/-- `JMP?` (rule R107). -/
def execJmpQ (a : RegIdx) (s : State) : Result := .next (whenFlag (jumpForm a) s)

end Sys2Proof.Machine
end

