-- ==== Sys2Proof/Machine/Jump.lean ====
section
/-! DEFINITION. `JMP` (spec rule R127). -/

namespace Sys2Proof.Machine

/-- `JMP` (rule R127). -/
def execJmp (a : RegIdx) (s : State) : Result := .next (jumpForm a s)

end Sys2Proof.Machine
end

