-- ==== Sys2Proof/Machine/LoadStore.lean ====
section
/-! DEFINITION. `LDB`, `LDW`, `STB`, `STW` (spec rules R75 to R79). -/

namespace Sys2Proof.Machine

/-- `LDB` (rule R76): zero-extended. -/
def execLdb (a b : RegIdx) (s : State) : Result := .next (loadForm 1 a b s)

/-- `LDW` (rule R77). -/
def execLdw (a b : RegIdx) (s : State) : Result := .next (loadForm 4 a b s)

/-- `STB` (rule R78). -/
def execStb (a b : RegIdx) (s : State) : Result := .next (storeForm 1 a b s)

/-- `STW` (rule R79). -/
def execStw (a b : RegIdx) (s : State) : Result := .next (storeForm 4 a b s)

end Sys2Proof.Machine
end

