-- ==== Sys2Proof/Machine/MoveLiteral.lean ====
section
/-! DEFINITION. `LDH`, `MOV`, `LDI` (spec rules R71 to R74). On entry `pc` is the window's address plus 4;
the extension bytes of `LDH` and `LDI` have been read and checked by the fetch (`Machine/Fetch.lean`). -/

namespace Sys2Proof.Machine

/-- `LDH` (rule R72): the literal, or `any32()` where a digit byte is no digit. -/
def execLdh (a : RegIdx) (h0 h1 h2 h3 : Byte) (s : State) : Result :=
  match hexLit h0 h1 h2 h3 with
  | some v => .next (s.advance.setReg a v)
  | none => .next (s.advance.drawAny.setReg a s.any32)

/-- `MOV` (rule R73). -/
def execMov (a b : RegIdx) (s : State) : Result := .next (moveForm a b s)

/-- `LDI` (rule R74). -/
def execLdi (a : RegIdx) (v : Word) (s : State) : Result := .next (s.advance.setReg a v)

end Sys2Proof.Machine
end

