-- ==== Sys2Proof/Machine/Reserved.lean ====
section
/-! DEFINITION. The reserved 16-bit forms (spec rule R64): both take the fatal fault `INVALID_OPCODE`, as
any unlisted pair does. -/

namespace Sys2Proof.Machine

/-- `RSV_LD16`, the pair 0x3D 0x7B (rule R64). -/
def execRsvLd16 (s : State) : Result := .next (s.raise (.invalidOpcode 0x3D 0x7B))

/-- `RSV_ST16`, the pair 0x7B 0x3D (rule R64). -/
def execRsvSt16 (s : State) : Result := .next (s.raise (.invalidOpcode 0x7B 0x3D))

end Sys2Proof.Machine
end

