-- ==== Sys2Proof/Machine/Dispatch.lean ====
section
/-! DEFINITION. The dispatch (spec rule R55): one arm per constructor of `Instr`, each one call of its
instruction's meaning. -/

namespace Sys2Proof.Machine

-- What an instruction does, from the state in which `pc` is already past its window (spec rule R52).
def exec (i : Instr) (s : State) : Host.Outcome State Fault Refusal :=
  match i with
  | .ldh a h0 h1 h2 h3 => Sys2Proof.Machine.execLdh a h0 h1 h2 h3 s
  | .mov a b => Sys2Proof.Machine.execMov a b s
  | .ldi a v => Sys2Proof.Machine.execLdi a v s
  | .ldb a b => Sys2Proof.Machine.execLdb a b s
  | .ldw a b => Sys2Proof.Machine.execLdw a b s
  | .stb a b => Sys2Proof.Machine.execStb a b s
  | .stw a b => Sys2Proof.Machine.execStw a b s
  | .add a b => Sys2Proof.Machine.execAdd a b s
  | .sub a b => Sys2Proof.Machine.execSub a b s
  | .mul a b => Sys2Proof.Machine.execMul a b s
  | .div a b => Sys2Proof.Machine.execDiv a b s
  | .and a b => Sys2Proof.Machine.execAnd a b s
  | .or a b => Sys2Proof.Machine.execOr a b s
  | .xor a b => Sys2Proof.Machine.execXor a b s
  | .shr a b => Sys2Proof.Machine.execShr a b s
  | .shl a b => Sys2Proof.Machine.execShl a b s
  | .ceq a b => Sys2Proof.Machine.execCeq a b s
  | .cgt a b => Sys2Proof.Machine.execCgt a b s
  | .clt a b => Sys2Proof.Machine.execClt a b s
  | .cne a b => Sys2Proof.Machine.execCne a b s
  | .sys a b => Sys2Proof.Machine.execSys a b s
  | .sysx a b r2 r3 r4 r5 => Sys2Proof.Machine.execSysx a b r2 r3 r4 r5 s
  | .jmp a => Sys2Proof.Machine.execJmp a s
  | .movQ a b => Sys2Proof.Machine.execMovQ a b s
  | .addQ a b => Sys2Proof.Machine.execAddQ a b s
  | .subQ a b => Sys2Proof.Machine.execSubQ a b s
  | .mulQ a b => Sys2Proof.Machine.execMulQ a b s
  | .divQ a b => Sys2Proof.Machine.execDivQ a b s
  | .andQ a b => Sys2Proof.Machine.execAndQ a b s
  | .orQ a b => Sys2Proof.Machine.execOrQ a b s
  | .xorQ a b => Sys2Proof.Machine.execXorQ a b s
  | .shrQ a b => Sys2Proof.Machine.execShrQ a b s
  | .shlQ a b => Sys2Proof.Machine.execShlQ a b s
  | .sysQ a b => Sys2Proof.Machine.execSysQ a b s
  | .jmpQ a => Sys2Proof.Machine.execJmpQ a s
  | .rsvLd16 => Sys2Proof.Machine.execRsvLd16 s
  | .rsvSt16 => Sys2Proof.Machine.execRsvSt16 s

end Sys2Proof.Machine
end

