-- ==== Sys2Proof/Machine/Fetch.lean ====
section
/-! DEFINITION. The fetch cycle up to the dispatch (spec rules R52 to R54, R59 to R61): the window, the base
advance, the conditional skip, the extension bytes and the decoding. -/

namespace Sys2Proof.Machine

/-- What a fetch ends in. -/
inductive Fetched where
  /-- an instruction, to be run from a state whose `pc` is past its window -/
  | run (i : Instr) (s : State)
  /-- nothing is left to run: the window was skipped, or a fatal fault was taken -/
  | done (s : State)
deriving DecidableEq, Repr

/-- Dispatch's check (rule R55): the instruction of the bytes, or `InvalidOpcode(op1, op2)`. The pair the
diagnostic is offered is the normalised one (rule R130). -/
def dispatchBytes (op1 op2 : Byte) (bytes : List Byte) (s : State) : Fetched :=
  match decode bytes with
  | .ok i => .run i s
  | .error _ =>
    .done (s.raise (.invalidOpcode op1 (if op2 = condMarker then spaceByte else op2)))

/-- From the window to the dispatch, with `pc` already past the window: the conditional skip is tested
before anything is decoded (rule R54), and the extension bytes of an 8-byte form are read at `pc` and
checked against `MEM_SIZE` (rules R59 to R61, R134). DEDUCED, log entry 10, safe. -/
def decodeWindow (op1 op2 op3 op4 : Byte) (s : State) : Fetched :=
  if op2 = condMarker ∧ s.flag = false then .done s
  else if hasExtension op1 op2 then
    match s.fetchBytes s.pc with
    | some (e0, e1, e2, e3) => dispatchBytes op1 op2 [op1, op2, op3, op4, e0, e1, e2, e3] s
    | none => .done (s.raise (.outOfBounds s.pc))
  else dispatchBytes op1 op2 [op1, op2, op3, op4] s

/-- One fetch (rule R52): the window at `pc`, or `OutOfBounds` with `pc` unchanged; then the base advance,
for every window (rule R53). -/
def fetch (s : State) : Fetched :=
  match s.fetchBytes s.pc with
  | some (op1, op2, op3, op4) => decodeWindow op1 op2 op3 op4 s.advance
  | none => .done (s.raise (.outOfBounds s.pc))

/-- Writes bytes from `a` up that lie below `MEM_SIZE`; the others are left out. -/
def placeBytes (m : Memory) (a : Nat) : List Byte → Memory
  | [] => m
  | b :: bs => placeBytes (if a < Config.memSize then m.writeByte a b else m) (a + 1) bs

end Sys2Proof.Machine
end

