-- ==== Sys2Proof/Machine/Step.lean ====
section
/-! DEFINITION. One step of the core (spec rule R52). -/

namespace Sys2Proof.Machine

/-- Ends a cycle after its fetch: the instruction that was found runs. -/
def finish : Fetched → Result
  | .run i t => exec i t
  | .done t => .next t

/-- `Step()` (rule R52), defined only in `FETCH`: a halted core has no step (rules R28, R129). -/
def step (s : State) : Host.Outcome State Fault Refusal :=
  match s.runState with
  | .halted => .fault .halted
  | .fetch => finish (fetch s)

/-- The state with an instruction, numbered as the opcode table numbers it, in memory at `pc`, so that
the next step of a core in `FETCH` fetches it. Eight bytes are placed, the longest instruction; a byte
that would lie at or beyond `MEM_SIZE` has no place. DEDUCED, log entry 8, safe. -/
def State.withFetchWord (s : State) (nbits w : Nat) : State :=
  s.setMem (placeBytes s.mem s.pc.toNat (tableBytes nbits w))

end Sys2Proof.Machine
end

