-- ==== Sys2Proof/Machine/Reset.lean ====
section
/-! DEFINITION. The reset event (spec rules R26, R148, R149): the program image at address 0 of an otherwise
zero memory. The loader that provides the image is outside the core. -/

namespace Sys2Proof.Machine

/-- The Memory Image a program image leaves (rule R26). -/
def imageMemory (image : List Byte) : Memory := Memory.writeBytes [] 0 image

/-- The reset event, from any state, `HALTED` included (rule R148). An image longer than `MEM_SIZE` is the
loader's to refuse (U11): `none`. The inputs from outside the core, the record of the calls made of the
host and the count of `any32()` are no state of the core and stay (DEDUCED, log
entry 6, safe). -/
def State.resetEvent (s : State) (image : List Byte) : Option State :=
  if image.length ≤ Config.memSize then
    some { State.reset with
      mem := imageMemory image
      guestArgv := s.guestArgv
      hostAnswers := s.hostAnswers
      hostCalls := s.hostCalls
      anyDraws := s.anyDraws }
  else none

end Sys2Proof.Machine
end

