-- ==== Sys2Proof/Safety.lean ====
section
/-! DEFINITION. The terms the statements use: what a step leaves unchanged, what a fatal fault leaves, the
invariant of the machine, and the spec's encodings and number readings said without the model's own
functions. -/

namespace Sys2Proof.Machine

/-! ### What is unchanged -/

/-- Every register outside `l` holds what it held. The program counter is register 63. -/
def KeepsRegs (l : List RegIdx) (s t : State) : Prop := ∀ r, r ∉ l → t.reg r = s.reg r

/-- Every address outside `[a, a + n)` reads as it did. -/
def KeepsMemOutside (a n : Nat) (s t : State) : Prop :=
  ∀ k, ¬ (a ≤ k ∧ k < a + n) → t.mem.readByte k = s.mem.readByte k

/-- Every address reads as it did. -/
def KeepsMem (s t : State) : Prop := ∀ k, t.mem.readByte k = s.mem.readByte k

/-- `run_state`, `fault_kind` and `halt_code` are as they were. -/
def KeepsStatus (s t : State) : Prop :=
  t.runState = s.runState ∧ t.faultKind = s.faultKind ∧ t.haltCode = s.haltCode

/-- Nothing was asked of the host, and the inputs from outside are as they were. The record of calls and the
queue of answers are the model's (DESIGN CHOICE, log entries 2 and 4). -/
def KeepsHost (s t : State) : Prop :=
  t.guestArgv = s.guestArgv ∧ t.hostAnswers = s.hostAnswers ∧ t.hostCalls = s.hostCalls

/-- Only the registers in `l` may differ: flag, memory, status, host and the count of `any32()` are as
they were. -/
structure OnlyRegs (l : List RegIdx) (s t : State) : Prop where
  regs : KeepsRegs l s t
  flag : t.flag = s.flag
  mem : KeepsMem s t
  status : KeepsStatus s t
  host : KeepsHost s t
  draws : t.anyDraws = s.anyDraws

/-- The fatal fault `k` was taken (rule R132) and nothing else happened, but that the registers in `l` may
differ. -/
structure FaultsWith (k : FaultKind) (l : List RegIdx) (s t : State) : Prop where
  kind : t.faultKind = k
  code : t.haltCode = Config.fatalExitCode
  halted : t.runState = .halted
  regs : KeepsRegs l s t
  flag : t.flag = s.flag
  mem : KeepsMem s t
  host : KeepsHost s t
  draws : t.anyDraws = s.anyDraws

/-! ### The machine's invariant -/

/-- What holds of the state of a core that was reset and only stepped since. -/
structure State.Inv (s : State) : Prop where
  /-- the Memory Image is in its canonical form, every cell below `MEM_SIZE` (rule R29); the form is the
  model's own (DESIGN CHOICE, log entry 9) -/
  memory : s.mem.wf = true
  /-- `x[62]` "stays zero for the whole run" (rule R14) -/
  reg62 : s.reg 62 = 0
  /-- a core that still fetches has taken no fault (rules R22, R132) -/
  noFault : s.runState = .fetch → s.faultKind = .none
  /-- a fatal fault presents `FATAL_EXIT_CODE` (rules R132, R152) -/
  faultCode : s.faultKind ≠ .none → s.haltCode = Config.fatalExitCode
  /-- the guest arguments hold no zero byte (rule R122) -/
  argv : ∀ g ∈ s.guestArgv, (0 : Byte) ∉ g

/-! ### The window at `pc` -/

/-- Byte `k` of the window at `pc`: `op1` is 0, `op2` is 1, `op3` is 2, `op4` is 3 (rule R49). -/
def State.windowByte (s : State) (k : Nat) : Byte := s.mem.readByte (s.pc.toNat + k)

/-- The core runs and its window lies in memory. -/
def State.CanFetch (s : State) : Prop := s.runState = .fetch ∧ s.pc.toNat + 4 ≤ Config.memSize

/-- The window at `pc` begins with the pair (rule R49). -/
def State.HasPair (s : State) (op1 op2 : Byte) : Prop := s.windowByte 0 = op1 ∧ s.windowByte 1 = op2

/-- The window at `pc` is a syscall instruction that is not skipped: `SYS`, `SYSX`, or `SYS?` with the
flag 1 (rules R54, R106, R110, R111). -/
def State.RunsSyscall (s : State) : Prop :=
  s.windowByte 0 = 0x53 ∧
  (s.windowByte 1 = 0x20 ∨ s.windowByte 1 = 0x2B ∨ (s.windowByte 1 = 0x3F ∧ s.flag = true))

/-- The 23 pairs of rule R62, written out. -/
def basePairs : List (Byte × Byte) :=
  [ (0x3D, 0x23), (0x3D, 0x20), (0x3D, 0x24), (0x3D, 0x5B), (0x3D, 0x28), (0x5B, 0x3D), (0x28, 0x3D),
    (0x2B, 0x20), (0x2D, 0x20), (0x2A, 0x20), (0x2F, 0x20), (0x26, 0x20), (0x7C, 0x20), (0x5E, 0x20),
    (0x3E, 0x20), (0x3C, 0x20), (0x3F, 0x3D), (0x3F, 0x3E), (0x3F, 0x3C), (0x3F, 0x21), (0x53, 0x20),
    (0x53, 0x2B), (0x4A, 0x20) ]

/-- The twelve conditional pairs (rules R62, R66) and the two reserved ones (rule R64). -/
def otherPairs : List (Byte × Byte) :=
  [ (0x3D, 0x3F), (0x2B, 0x3F), (0x2D, 0x3F), (0x2A, 0x3F), (0x2F, 0x3F), (0x26, 0x3F), (0x7C, 0x3F),
    (0x5E, 0x3F), (0x3E, 0x3F), (0x3C, 0x3F), (0x53, 0x3F), (0x4A, 0x3F), (0x3D, 0x7B), (0x7B, 0x3D) ]

/-- The three pairs whose instructions are 8 bytes long (rule R51). -/
def longPairs : List (Byte × Byte) := [(0x3D, 0x23), (0x3D, 0x24), (0x53, 0x2B)]

/-- A four-byte form with the pair `(op1, op2)` decodes to `mk` of the two registers its operand bytes
name, whatever follows it. -/
def Spells (op1 op2 : Byte) (mk : RegIdx → RegIdx → Instr) : Prop :=
  ∀ op3 op4 rest, decode (op1 :: op2 :: op3 :: op4 :: rest) = .ok (mk (regName op3) (regName op4))

/-- An 8-byte form whose extension bytes do not fit in memory takes `OUT_OF_BOUNDS` with `pc = A + 4` and
nothing else changed (rule R133). -/
def ExtensionFaults (op1 op2 : Byte) : Prop :=
  ∀ s : State, s.CanFetch → s.HasPair op1 op2 → Config.memSize < s.pc.toNat + 8 →
    ∃ t, step s = .next t ∧ t.pc = s.pc + 4 ∧ FaultsWith .outOfBounds [pcIndex] s t

/-- `c` is the hexadecimal digit of value `d`: `'0'` to `'9'` or `'A'` to `'F'` (rule R58). -/
def HexDigit (c : Byte) (d : Nat) : Prop :=
  (d ≤ 9 ∧ c.toNat = 0x30 + d) ∨ (10 ≤ d ∧ d ≤ 15 ∧ c.toNat = 0x41 + (d - 10))

/-- The 32-bit word that four bytes spell, the first least significant (rule R31). -/
def word4 (b0 b1 b2 b3 : Byte) : Nat :=
  b0.toNat + 256 * b1.toNat + 65536 * b2.toNat + 16777216 * b3.toNat

/-- The word at an address (rule R33). -/
def Memory.word (m : Memory) (a : Nat) : Nat :=
  word4 (m.readByte a) (m.readByte (a + 1)) (m.readByte (a + 2)) (m.readByte (a + 3))

/-! ### Shapes of rules -/

/-- A two-register form that writes `f(x[a], x[b])`, a number below `2^32`, to `x[a]` and changes nothing
else (rules R27, R80). -/
def RegisterRule (mk : RegIdx → RegIdx → Instr) (f : Nat → Nat → Nat) : Prop :=
  ∀ a b s, ∃ t, exec (mk a b) s = .next t ∧
    (t.reg a).toNat = f (s.reg a).toNat (s.reg b).toNat ∧ OnlyRegs [a] s t

/-- Its conditional form: the same when the flag is 1, nothing at all when it is 0 (rule R95). -/
def ConditionalRule (mk : RegIdx → RegIdx → Instr) (f : Nat → Nat → Nat) : Prop :=
  ∀ a b s, ∃ t, exec (mk a b) s = .next t ∧
    if s.flag then (t.reg a).toNat = f (s.reg a).toNat (s.reg b).toNat ∧ OnlyRegs [a] s t
    else OnlyRegs [] s t

/-- A compare: the flag becomes whether `rel` holds of the two unsigned values, and nothing else changes
(rule R90). -/
def CompareRule (mk : RegIdx → RegIdx → Instr) (rel : Nat → Nat → Prop) : Prop :=
  ∀ a b s, ∃ t, exec (mk a b) s = .next t ∧
    (t.flag = true ↔ rel (s.reg a).toNat (s.reg b).toNat) ∧
    KeepsRegs [] s t ∧ KeepsMem s t ∧ KeepsStatus s t ∧ KeepsHost s t ∧ t.anyDraws = s.anyDraws

/-! ### Syscalls -/

/-- `path` is the string at `off`: its bytes are not 0, a zero byte follows, and all lie in memory
(rule R114). -/
def HasPath (s : State) (off : Word) (path : List Byte) : Prop :=
  off.toNat + path.length < Config.memSize ∧
  (∀ k (h : k < path.length), s.mem.readByte (off.toNat + k) = path[k] ∧ path[k] ≠ 0) ∧
  s.mem.readByte (off.toNat + path.length) = 0

/-- `i`, run in `s`, makes the syscall with values `q`, puts the result in register `d`, and leaves
`pc = p` (rules R106, R110, R111). -/
inductive MakesSyscall : Instr → State → RegIdx → SyscallArgs → Word → Prop
  | sys (a b : RegIdx) (s : State) :
      MakesSyscall (.sys a b) s a ⟨s.reg a, s.reg b, 0, 0, 0, 0⟩ s.pc
  | sysQ (a b : RegIdx) (s : State) (h : s.flag = true) :
      MakesSyscall (.sysQ a b) s a ⟨s.reg a, s.reg b, 0, 0, 0, 0⟩ s.pc
  | sysx (a b r2 r3 r4 r5 : RegIdx) (s : State) :
      MakesSyscall (.sysx a b r2 r3 r4 r5) s a
        ⟨s.reg a, s.reg b, s.reg r2, s.reg r3, s.reg r4, s.reg r5⟩ (s.pc + 4)

/-- A syscall took the fatal fault `k`: `pc = p`, nothing asked of the host, nothing written
(rule R133). -/
def SyscallFaults (i : Instr) (s : State) (p : Word) (k : FaultKind) : Prop :=
  ∃ t, exec i s = .next t ∧ t.pc = p ∧ FaultsWith k [pcIndex] s t

/-- A syscall asked the host for `c` and completed: the result register `d` holds `v`, `pc = p`, the answer
is used up, and everything but memory is otherwise as it was. The queue of answers and the record of calls are
the model's (DESIGN CHOICE, log entries 2 and 4). -/
structure AskedHost (c : HostCall) (d : RegIdx) (v p : Word) (s t : State) : Prop where
  call : t.hostCalls = s.hostCalls ++ [c]
  answers : t.hostAnswers = s.hostAnswers.tail
  result : t.reg d = v
  pc : t.pc = p
  regs : KeepsRegs [d, pcIndex] s t
  flag : t.flag = s.flag
  status : KeepsStatus s t
  argv : t.guestArgv = s.guestArgv
  draws : t.anyDraws = s.anyDraws

end Sys2Proof.Machine
end

