-- ==== Sys2Proof/Certificates/Slice0/Obligations.lean ====
section
/-! DEFINITION. The statements for the provers. Each docstring names the rule of `spec/` it formalises; the
terms are those of `Sys2Proof/Safety.lean`. -/

open Sys2Proof Sys2Proof.Machine

/-! ### Reset and the invariant -/

/-- Rule R26 for an empty program image: what `State.reset` holds. -/
def Obligations.ResetStateValues : Prop :=
  (∀ r, State.reset.reg r = 0) ∧ State.reset.flag = false ∧
  (∀ k, State.reset.mem.readByte k = 0) ∧
  State.reset.runState = .fetch ∧ State.reset.faultKind = .none

/-- Rule R26 for any program image that fits, from any state, a halted one too (rule R148). `halt_code`,
which the rule leaves unspecified, is not spoken of. -/
def Obligations.ResetEventEstablishesR26 : Prop :=
  ∀ (s : State) (image : List Byte), image.length ≤ Config.memSize →
    ∃ t, s.resetEvent image = some t ∧ (∀ r, t.reg r = 0) ∧ t.flag = false ∧
      (∀ k (h : k < image.length), t.mem.readByte k = image[k]) ∧
      (∀ k, image.length ≤ k → t.mem.readByte k = 0) ∧
      t.runState = .fetch ∧ t.faultKind = .none

/-- The invariant holds of the reset state. The clauses on `x[62]` and on the status are rules R14, R22 and
R26. The canonical form of memory is the model's own (DESIGN CHOICE, log entry 9), and the clause on the guest
arguments holds by the empty list the model gives them at reset (DESIGN CHOICE, log entry 7). -/
def Obligations.ResetMeetsInvariant : Prop := State.reset.Inv

/-- The reset event with an image that fits meets the invariant, if the guest arguments do. The clauses on
`x[62]` and on the status are rules R14, R22 and R26. The canonical form of memory is the model's own (DESIGN
CHOICE, log entry 9), and that the reset event keeps the guest arguments is the model's reading (DEDUCED, log
entry 6). -/
def Obligations.ResetEventMeetsInvariant : Prop :=
  ∀ (s t : State) (image : List Byte), (∀ g ∈ s.guestArgv, (0 : Byte) ∉ g) →
    s.resetEvent image = some t → t.Inv

/-- Every step keeps the invariant, from every state that meets it. The canonical form of memory is the
model's own (DESIGN CHOICE, log entry 9); the other clauses are rules R14, R22, R122, R132 and R152. -/
def Obligations.StepKeepsInvariant : Prop :=
  ∀ s t : State, s.Inv → step s = .next t → t.Inv

/-- Rule R150: after reset `pc` is 0, the window is read from address 0 up, where the image is the memory's
contents, and an empty image halts at once with `INVALID_OPCODE` and `pc = 4`. -/
def Obligations.EntryPointAndEmptyImage : Prop :=
  ∀ (s t : State) (image : List Byte), s.resetEvent image = some t →
    t.pc = 0 ∧ (∀ k, t.windowByte k = t.mem.readByte k) ∧
    (∀ k (h : k < image.length), t.windowByte k = image[k]) ∧
    (image = [] →
      ∃ u, step t = .next u ∧ u.pc = 4 ∧ FaultsWith .invalidOpcode [pcIndex] t u)

/-- Canonical memories that read alike are equal: the model's form of the Memory Image (log entry 9) has
one representation for each contents (rule R23). -/
def Obligations.CanonicalMemoriesThatReadAlikeAreEqual : Prop :=
  ∀ m m' : Memory, m.wf = true → m'.wf = true → (∀ a, m.readByte a = m'.readByte a) → m = m'

/-! ### Encoding and decoding -/

/-- Rule R57. -/
def Obligations.RegisterNamesDecodeByRange : Prop :=
  ∀ c : Byte,
    (0x30 ≤ c.toNat → c.toNat ≤ 0x39 → (regName c).val = c.toNat - 0x30) ∧
    (0x41 ≤ c.toNat → c.toNat ≤ 0x5A → (regName c).val = c.toNat - 0x41 + 10) ∧
    (0x61 ≤ c.toNat → c.toNat ≤ 0x7A → (regName c).val = c.toNat - 0x61 + 36) ∧
    (¬ (0x30 ≤ c.toNat ∧ c.toNat ≤ 0x39) → ¬ (0x41 ≤ c.toNat ∧ c.toNat ≤ 0x5A) →
      ¬ (0x61 ≤ c.toNat ∧ c.toNat ≤ 0x7A) → (regName c).val = 0) ∧
    (regName c).val ≤ 61

/-- A few instructions written out byte by byte from rule R62. A window is numbered as rule R56 says; that
the extension bytes of the last word are its bits 63 to 32, the first byte most significant, is the model's
reading (DEDUCED, log entry 3). -/
def Obligations.SampleWordsDecode : Prop :=
  decodeTableWord 32 0x2B203031 = some (.add 0 1) ∧
  decodeTableWord 32 0x5B3D417A = some (.stb 10 61) ∧
  decodeTableWord 32 0x3F3C3031 = some (.clt 0 1) ∧
  decodeTableWord 32 0x4A3F3420 = some (.jmpQ 4) ∧
  decodeTableWord 64 0x123456783D246120 = some (.ldi 36 0x78563412)

/-- Decoding the bytes of a well-formed instruction, whatever follows them, gives it back, and they are as
many as the instruction is long (rules R50, R51). -/
def Obligations.DecodeOfEncodeIsIdentity : Prop :=
  ∀ (i : Instr) (rest : List Byte), i.wellFormed = true →
    decode (encode i ++ rest) = .ok i ∧ (encode i).length = i.byteLength

/-- Rules R14, R57: an instruction that was decoded names no register but `x[0]` to `x[61]`. -/
def Obligations.DecodedInstructionsAreWellFormed : Prop :=
  ∀ (bytes : List Byte) (i : Instr), decode bytes = .ok i → i.wellFormed = true

/-- Rules R51, R55, R62 to R64: the pair `(op1, op2)` alone decides whether eight bytes begin with an
instruction, and how long it is. -/
def Obligations.DecodeAcceptsExactlyTheOpcodeMap : Prop :=
  ∀ op1 op2 op3 op4 e0 e1 e2 e3 : Byte,
    ((op1, op2) ∈ basePairs ++ otherPairs →
      ∃ i, decode [op1, op2, op3, op4, e0, e1, e2, e3] = .ok i ∧
        i.byteLength = if (op1, op2) ∈ longPairs then 8 else 4) ∧
    ((op1, op2) ∉ basePairs ++ otherPairs →
      decode [op1, op2, op3, op4, e0, e1, e2, e3] = .error (.invalidOpcode op1 op2))

/-- Rules R57, R65: an operand byte acts only through the register it names, and `op4` of `LDH`, `LDI`,
`JMP` and `JMP?` not at all. -/
def Obligations.OperandBytesActOnlyThroughTheirNames : Prop :=
  (∀ (op1 op2 c3 d3 c4 d4 : Byte) (rest : List Byte), regName c3 = regName d3 → regName c4 = regName d4 →
    decode (op1 :: op2 :: c3 :: c4 :: rest) = decode (op1 :: op2 :: d3 :: d4 :: rest)) ∧
  (∀ (op1 op2 op3 c4 d4 : Byte) (rest : List Byte),
    (op1, op2) ∈ [((0x3D : Byte), (0x23 : Byte)), (0x3D, 0x24), (0x4A, 0x20), (0x4A, 0x3F)] →
    decode (op1 :: op2 :: op3 :: c4 :: rest) = decode (op1 :: op2 :: op3 :: d4 :: rest))

/-! ### The fetch cycle -/

/-- Rule R52: when the bytes at `pc` decode to `i`, a step of a core that fetches is `exec` of `i` from the
state whose `pc` is past the window. -/
def Obligations.StepRunsTheDecodedInstruction : Prop :=
  ∀ (s : State) (i : Instr), s.runState = .fetch → s.pc.toNat + i.byteLength ≤ Config.memSize →
    decode (s.mem.readBytes s.pc.toNat i.byteLength) = .ok i →
    step s = exec i s.advance ∧ s.advance.pc = s.pc + 4 ∧ OnlyRegs [pcIndex] s s.advance

/-- Rules R123, R129, R132, R136: the run-state machine. A step from `FETCH` always answers a next state: its
status is unchanged, or it halts by a fatal fault, or by a syscall instruction that is not skipped and whose
number is 7. `HALTED` has no step, which the model says by its own fault `halted` (DEDUCED, log entry 11). -/
def Obligations.RunStateMachine : Prop :=
  (∀ s : State, s.runState = .fetch → ∃ t, step s = .next t ∧
    (KeepsStatus s t ∨
     (t.runState = .halted ∧ t.faultKind ≠ .none ∧ t.haltCode = Config.fatalExitCode) ∨
     (t.runState = .halted ∧ t.faultKind = s.faultKind ∧ s.RunsSyscall ∧
       s.reg (regName (s.windowByte 2)) = 7))) ∧
  (∀ s : State, s.runState = .halted → step s = .fault .halted)

/-- Rules R35, R36, R133: a window that does not fit in memory takes `OUT_OF_BOUNDS` with `pc` unchanged. -/
def Obligations.FetchOutOfBoundsHaltsInPlace : Prop :=
  ∀ s : State, s.runState = .fetch → Config.memSize < s.pc.toNat + 4 →
    ∃ t, step s = .next t ∧ FaultsWith .outOfBounds [] s t

/-- Rule R63: a pair that, after the conditional marker is replaced, is not one of the 23 takes
`INVALID_OPCODE` with `pc = A + 4` and nothing else changed. -/
def Obligations.UnlistedPairsAreInvalidOpcodes : Prop :=
  basePairs.Nodup ∧ basePairs.length = 23 ∧
  ∀ s : State, s.CanFetch → ¬ (s.windowByte 1 = 0x3F ∧ s.flag = false) →
    (s.windowByte 0, if s.windowByte 1 = 0x3F then 0x20 else s.windowByte 1) ∉ basePairs →
    ∃ t, step s = .next t ∧ t.pc = s.pc + 4 ∧ FaultsWith .invalidOpcode [pcIndex] s t

/-- Rules R54, R95: a window with `op2 = '?'` does nothing but advance `pc` when the flag is 0, whatever
`op1` is; when it is 1 it behaves as the window with a space in its place. -/
def Obligations.ConditionalModifier : Prop :=
  ∀ s : State, s.CanFetch → s.windowByte 1 = 0x3F →
    (s.flag = false → ∃ t, step s = .next t ∧ t.pc = s.pc + 4 ∧ OnlyRegs [pcIndex] s t) ∧
    (s.flag = true →
      (∀ i, decode [s.windowByte 0, 0x20, s.windowByte 2, s.windowByte 3] = .ok i →
        step s = exec i s.advance) ∧
      ((∀ i, decode [s.windowByte 0, 0x20, s.windowByte 2, s.windowByte 3] ≠ .ok i) →
        ∃ t, step s = .next t ∧ t.pc = s.pc + 4 ∧ FaultsWith .invalidOpcode [pcIndex] s t))

/-! ### Rules of the whole machine -/

/-- Rule R18: the program counter after any step. -/
def Obligations.ProgramCounterAfterAStep : Prop :=
  ∀ s t : State, step s = .next t →
    t.pc =
      if Config.memSize < s.pc.toNat + 4 then s.pc
      else if s.windowByte 1 = 0x3F ∧ s.flag = false then s.pc + 4
      else if s.windowByte 0 = 0x4A ∧ (s.windowByte 1 = 0x20 ∨ s.windowByte 1 = 0x3F) then
        s.reg (regName (s.windowByte 2))
      else if (s.windowByte 0, s.windowByte 1) ∈ longPairs ∧ s.pc.toNat + 8 ≤ Config.memSize then
        s.pc + 8
      else s.pc + 4

/-- Rules R16, R27: a step changes no register but `pc` and the one `op3` names; a store, a compare and a
jump change no register but `pc`. -/
def Obligations.OnlyTheDestinationRegisterChanges : Prop :=
  ∀ s t : State, step s = .next t →
    KeepsRegs [regName (s.windowByte 2), pcIndex] s t ∧
    ((s.windowByte 1 = 0x3D ∨ s.windowByte 0 = 0x3F ∨ s.windowByte 0 = 0x4A) →
      KeepsRegs [pcIndex] s t)

/-- Rule R21: the flag changes only by one of the four compares. -/
def Obligations.OnlyComparesChangeTheFlag : Prop :=
  ∀ s t : State, step s = .next t → t.flag ≠ s.flag →
    s.windowByte 0 = 0x3F ∧ s.windowByte 1 ∈ [(0x3D : Byte), 0x3E, 0x3C, 0x21]

/-- Rules R30, R48, R118, R122: a byte of memory changes only by a store to it, or by the syscalls `read` and
`getargv` within the range their arguments name; the size `getargv` needs is written out. -/
def Obligations.OnlyStoresAndSyscallsChangeMemory : Prop :=
  ∀ (s t : State) (k : Nat), step s = .next t → t.mem.readByte k ≠ s.mem.readByte k →
    k < Config.memSize ∧
    ((s.HasPair 0x5B 0x3D ∧ k = (s.reg (regName (s.windowByte 2))).toNat) ∨
     (s.HasPair 0x28 0x3D ∧ (s.reg (regName (s.windowByte 2))).toNat ≤ k ∧
        k < (s.reg (regName (s.windowByte 2))).toNat + 4) ∨
     (s.HasPair 0x53 0x2B ∧ s.reg (regName (s.windowByte 2)) = 1 ∧
        (s.reg (regName (s.mem.readByte (s.pc.toNat + 4)))).toNat ≤ k ∧
        k < (s.reg (regName (s.mem.readByte (s.pc.toNat + 4)))).toNat +
          (s.reg (regName (s.mem.readByte (s.pc.toNat + 5)))).toNat) ∨
     (s.HasPair 0x53 0x2B ∧ s.reg (regName (s.windowByte 2)) = 5 ∧
        (s.reg (regName (s.windowByte 3))).toNat ≤ k ∧
        k < (s.reg (regName (s.windowByte 3))).toNat + (4 * (s.guestArgv.length + 1) +
          (s.guestArgv.map fun g => g.length + 1).sum)))

/-- Rules R116, R141: the host is asked only by a syscall instruction that is not skipped, with a number from
0 to 4, and once. The record of what is asked is the model's own (DESIGN CHOICE, log entry 4). -/
def Obligations.OnlySyscallsReachTheHost : Prop :=
  ∀ s t : State, step s = .next t → t.guestArgv = s.guestArgv ∧
    (t.hostCalls = s.hostCalls ∨
      (s.RunsSyscall ∧ (s.reg (regName (s.windowByte 2))).toNat ≤ 4 ∧
        ∃ c, t.hostCalls = s.hostCalls ++ [c]))

/-- Rules R132, R133: faults are precise. A step that records a fault has changed nothing but the status and
`pc`. -/
def Obligations.FaultsArePrecise : Prop :=
  ∀ s t : State, s.faultKind = .none → step s = .next t → t.faultKind ≠ .none →
    FaultsWith t.faultKind [pcIndex] s t

/-- Rule R14: `x[62]` is neither read nor written: a step from a state that differs only in it ends in a
state that differs only in it. -/
def Obligations.Register62IsInvisible : Prop :=
  ∀ (s t : State) (v : Word), step s = .next t → step (s.setReg 62 v) = .next (t.setReg 62 v)

/-- Rule R22: `halt_code` and `fault_kind` are outputs only. A step from a state that differs only in
`halt_code` differs only there, and not at all once the core has halted. The value `halt_code` has before
is the model's (log entry 5); this says that no step reads it. -/
def Obligations.HaltCodeIsNeverRead : Prop :=
  ∀ (s t : State) (c : Word), step s = .next t →
    step { s with haltCode := c } =
      .next (if t.runState = .halted then t else { t with haltCode := c })

/-- Rule R45: a byte stored into the next window is what the next fetch reads there. -/
def Obligations.StoreIsSeenByTheNextFetch : Prop :=
  ∀ (s : State) (j : Nat), s.CanFetch → s.HasPair 0x5B 0x3D → j < 4 →
    s.pc.toNat + 8 ≤ Config.memSize →
    (s.reg (regName (s.windowByte 2))).toNat = s.pc.toNat + 4 + j →
    ∃ t, step s = .next t ∧ t.CanFetch ∧
      t.windowByte j = (s.reg (regName (s.windowByte 3))).setWidth 8 ∧
      ∀ k, k ≠ j → k < 4 → t.windowByte k = s.windowByte (4 + k)

/-! ### Moves and literals -/

/-- Rules R58, R59, R72: `LDH`. What a bad digit loads, and the count of such values,
are the model's free value (DESIGN CHOICE, log entry 1). -/
def Obligations.LdhLoadsTheHexLiteral : Prop :=
  (∀ op3 op4 h0 h1 h2 h3 rest,
    decode (0x3D :: 0x23 :: op3 :: op4 :: h0 :: h1 :: h2 :: h3 :: rest) =
      .ok (.ldh (regName op3) h0 h1 h2 h3)) ∧
  ExtensionFaults 0x3D 0x23 ∧
  ∀ (a : RegIdx) (h0 h1 h2 h3 : Byte) (s : State), a.nameable = true →
    ∃ t, exec (.ldh a h0 h1 h2 h3) s = .next t ∧ t.pc = s.pc + 4 ∧ KeepsRegs [a, pcIndex] s t ∧
      t.flag = s.flag ∧ KeepsMem s t ∧ KeepsStatus s t ∧ KeepsHost s t ∧
      (∀ d0 d1 d2 d3, HexDigit h0 d0 → HexDigit h1 d1 → HexDigit h2 d2 → HexDigit h3 d3 →
        (t.reg a).toNat = 4096 * d0 + 256 * d1 + 16 * d2 + d3 ∧ t.anyDraws = s.anyDraws) ∧
      ((∃ h ∈ [h0, h1, h2, h3], ∀ d, ¬ HexDigit h d) →
        t.reg a = Config.any32 s.anyDraws ∧ t.anyDraws = s.anyDraws + 1)

/-- Rule R73: `MOV`. -/
def Obligations.MovCopiesARegister : Prop :=
  Spells 0x3D 0x20 .mov ∧ RegisterRule .mov (fun _ y => y)

/-- Rules R60, R74: `LDI`. -/
def Obligations.LdiLoadsTheWordLiteral : Prop :=
  (∀ op3 op4 e0 e1 e2 e3 rest,
    decode (0x3D :: 0x24 :: op3 :: op4 :: e0 :: e1 :: e2 :: e3 :: rest) =
      .ok (.ldi (regName op3) (BitVec.ofNat 32 (word4 e0 e1 e2 e3)))) ∧
  ExtensionFaults 0x3D 0x24 ∧
  ∀ (a : RegIdx) (v : Word) (s : State), a.nameable = true →
    ∃ t, exec (.ldi a v) s = .next t ∧ t.pc = s.pc + 4 ∧ t.reg a = v ∧ OnlyRegs [a, pcIndex] s t

/-! ### Loads and stores -/

/-- Rule R76: `LDB`. -/
def Obligations.LdbLoadsAZeroExtendedByte : Prop :=
  Spells 0x3D 0x5B .ldb ∧
  ∀ (a b : RegIdx) (s : State),
    ((s.reg b).toNat < Config.memSize → ∃ t, exec (.ldb a b) s = .next t ∧
      (t.reg a).toNat = (s.mem.readByte (s.reg b).toNat).toNat ∧ OnlyRegs [a] s t) ∧
    (Config.memSize ≤ (s.reg b).toNat → ∃ t, exec (.ldb a b) s = .next t ∧
      FaultsWith .outOfBounds [] s t)

/-- Rule R77: `LDW`. -/
def Obligations.LdwLoadsALittleEndianWord : Prop :=
  Spells 0x3D 0x28 .ldw ∧
  ∀ (a b : RegIdx) (s : State),
    ((s.reg b).toNat + 4 ≤ Config.memSize → ∃ t, exec (.ldw a b) s = .next t ∧
      (t.reg a).toNat = s.mem.word (s.reg b).toNat ∧ OnlyRegs [a] s t) ∧
    (Config.memSize < (s.reg b).toNat + 4 → ∃ t, exec (.ldw a b) s = .next t ∧
      FaultsWith .outOfBounds [] s t)

/-- Rule R78: `STB`. -/
def Obligations.StbStoresTheLowByte : Prop :=
  Spells 0x5B 0x3D .stb ∧
  ∀ (a b : RegIdx) (s : State),
    ((s.reg a).toNat < Config.memSize → ∃ t, exec (.stb a b) s = .next t ∧
      (t.mem.readByte (s.reg a).toNat).toNat = (s.reg b).toNat % 256 ∧
      KeepsMemOutside (s.reg a).toNat 1 s t ∧ KeepsRegs [] s t ∧ t.flag = s.flag ∧
      KeepsStatus s t ∧ KeepsHost s t ∧ t.anyDraws = s.anyDraws) ∧
    (Config.memSize ≤ (s.reg a).toNat → ∃ t, exec (.stb a b) s = .next t ∧
      FaultsWith .outOfBounds [] s t)

/-- Rule R79: `STW`. -/
def Obligations.StwStoresALittleEndianWord : Prop :=
  Spells 0x28 0x3D .stw ∧
  ∀ (a b : RegIdx) (s : State),
    ((s.reg a).toNat + 4 ≤ Config.memSize → ∃ t, exec (.stw a b) s = .next t ∧
      (∀ k, k < 4 → (t.mem.readByte ((s.reg a).toNat + k)).toNat =
        (s.reg b).toNat / 2 ^ (8 * k) % 256) ∧
      KeepsMemOutside (s.reg a).toNat 4 s t ∧ KeepsRegs [] s t ∧ t.flag = s.flag ∧
      KeepsStatus s t ∧ KeepsHost s t ∧ t.anyDraws = s.anyDraws) ∧
    (Config.memSize < (s.reg a).toNat + 4 → ∃ t, exec (.stw a b) s = .next t ∧
      FaultsWith .outOfBounds [] s t)

/-- Rule R47: a word stored and loaded at the same address is the word; at an address where it does not fit
the store faults. -/
def Obligations.StoreThenLoadReturnsTheWord : Prop :=
  ∀ (a b c : RegIdx) (s : State),
    ((s.reg a).toNat + 4 ≤ Config.memSize →
      ∃ t u, exec (.stw a b) s = .next t ∧ exec (.ldw c a) t = .next u ∧ u.reg c = s.reg b) ∧
    (Config.memSize < (s.reg a).toNat + 4 →
      ∃ t, exec (.stw a b) s = .next t ∧ t.runState = .halted ∧ t.faultKind = .outOfBounds)

/-- Rule R32: the bytes of a stored word read one by one, and a word read over four stored bytes. -/
def Obligations.MixedWidthsSeePlainBytes : Prop :=
  (∀ (a b c d : RegIdx) (s t : State) (k : Nat), k < 4 → (s.reg a).toNat + 4 ≤ Config.memSize →
    exec (.stw a b) s = .next t → (s.reg d).toNat = (s.reg a).toNat + k →
    ∃ u, exec (.ldb c d) t = .next u ∧ u.reg c = ((s.reg b) >>> (8 * k)) &&& 0xFF) ∧
  (∀ (a0 a1 a2 a3 b0 b1 b2 b3 c : RegIdx) (s t0 t1 t2 t3 : State),
    (s.reg a0).toNat + 4 ≤ Config.memSize →
    (s.reg a1).toNat = (s.reg a0).toNat + 1 → (s.reg a2).toNat = (s.reg a0).toNat + 2 →
    (s.reg a3).toNat = (s.reg a0).toNat + 3 →
    exec (.stb a0 b0) s = .next t0 → exec (.stb a1 b1) t0 = .next t1 →
    exec (.stb a2 b2) t1 = .next t2 → exec (.stb a3 b3) t2 = .next t3 →
    ∃ u, exec (.ldw c a0) t3 = .next u ∧
      (u.reg c).toNat = word4 ((s.reg b0).setWidth 8) ((s.reg b1).setWidth 8)
        ((s.reg b2).setWidth 8) ((s.reg b3).setWidth 8))

/-! ### The ALU -/

/-- Rules R81 to R83: `ADD`, `SUB`, `MUL`, modulo `2^32`. -/
def Obligations.AddSubMulWrap : Prop :=
  (Spells 0x2B 0x20 .add ∧ RegisterRule .add fun x y => (x + y) % 2 ^ 32) ∧
  (Spells 0x2D 0x20 .sub ∧ RegisterRule .sub fun x y => if y ≤ x then x - y else x + 2 ^ 32 - y) ∧
  (Spells 0x2A 0x20 .mul ∧ RegisterRule .mul fun x y => x * y % 2 ^ 32)

/-- Rule R84: `DIV`, and the fault of a zero divisor. -/
def Obligations.DivRoundsDownOrFaults : Prop :=
  Spells 0x2F 0x20 .div ∧
  ∀ (a b : RegIdx) (s : State),
    (s.reg b ≠ 0 → ∃ t, exec (.div a b) s = .next t ∧
      (t.reg a).toNat = (s.reg a).toNat / (s.reg b).toNat ∧ OnlyRegs [a] s t) ∧
    (s.reg b = 0 → ∃ t, exec (.div a b) s = .next t ∧ FaultsWith .divideByZero [] s t)

/-- Rules R85 to R87: `AND`, `OR`, `XOR`, bit by bit. -/
def Obligations.BitwiseFormsActOnEveryBit : Prop :=
  Spells 0x26 0x20 .and ∧ Spells 0x7C 0x20 .or ∧ Spells 0x5E 0x20 .xor ∧
  ∀ (a b : RegIdx) (s : State),
    (∃ t, exec (.and a b) s = .next t ∧ OnlyRegs [a] s t ∧
      ∀ k, (t.reg a).getLsbD k = ((s.reg a).getLsbD k && (s.reg b).getLsbD k)) ∧
    (∃ t, exec (.or a b) s = .next t ∧ OnlyRegs [a] s t ∧
      ∀ k, (t.reg a).getLsbD k = ((s.reg a).getLsbD k || (s.reg b).getLsbD k)) ∧
    (∃ t, exec (.xor a b) s = .next t ∧ OnlyRegs [a] s t ∧
      ∀ k, (t.reg a).getLsbD k = ((s.reg a).getLsbD k ^^ (s.reg b).getLsbD k))

/-- Rules R88, R89: `SHR` and `SHL`, the count not masked; a count of 32 or more gives 0. -/
def Obligations.ShiftsByAnyCount : Prop :=
  (Spells 0x3E 0x20 .shr ∧ RegisterRule .shr fun x n => if 32 ≤ n then 0 else x / 2 ^ n) ∧
  (Spells 0x3C 0x20 .shl ∧ RegisterRule .shl fun x n => if 32 ≤ n then 0 else x * 2 ^ n % 2 ^ 32)

/-! ### Compares and conditional forms -/

/-- Rules R91 to R94: the four compares, unsigned. -/
def Obligations.ComparesWriteTheFlag : Prop :=
  (Spells 0x3F 0x3D .ceq ∧ CompareRule .ceq fun x y => x = y) ∧
  (Spells 0x3F 0x3E .cgt ∧ CompareRule .cgt fun x y => x > y) ∧
  (Spells 0x3F 0x3C .clt ∧ CompareRule .clt fun x y => x < y) ∧
  (Spells 0x3F 0x21 .cne ∧ CompareRule .cne fun x y => x ≠ y)

/-- Rules R96 to R99: `MOV?`, `ADD?`, `SUB?`, `MUL?`. -/
def Obligations.ConditionalMoveAndArithmetic : Prop :=
  (Spells 0x3D 0x3F .movQ ∧ ConditionalRule .movQ fun _ y => y) ∧
  (Spells 0x2B 0x3F .addQ ∧ ConditionalRule .addQ fun x y => (x + y) % 2 ^ 32) ∧
  (Spells 0x2D 0x3F .subQ ∧
    ConditionalRule .subQ fun x y => if y ≤ x then x - y else x + 2 ^ 32 - y) ∧
  (Spells 0x2A 0x3F .mulQ ∧ ConditionalRule .mulQ fun x y => x * y % 2 ^ 32)

/-- Rules R101 to R105: `AND?`, `OR?`, `XOR?`, `SHR?`, `SHL?`. -/
def Obligations.ConditionalBitwiseAndShifts : Prop :=
  (Spells 0x26 0x3F .andQ ∧ ConditionalRule .andQ fun x y => x &&& y) ∧
  (Spells 0x7C 0x3F .orQ ∧ ConditionalRule .orQ fun x y => x ||| y) ∧
  (Spells 0x5E 0x3F .xorQ ∧ ConditionalRule .xorQ fun x y => x ^^^ y) ∧
  (Spells 0x3E 0x3F .shrQ ∧ ConditionalRule .shrQ fun x n => if 32 ≤ n then 0 else x / 2 ^ n) ∧
  (Spells 0x3C 0x3F .shlQ ∧
    ConditionalRule .shlQ fun x n => if 32 ≤ n then 0 else x * 2 ^ n % 2 ^ 32)

/-- Rule R100: `DIV?`. A skipped division does not fault. -/
def Obligations.ConditionalDivide : Prop :=
  Spells 0x2F 0x3F .divQ ∧
  ∀ (a b : RegIdx) (s : State),
    (s.flag = false → ∃ t, exec (.divQ a b) s = .next t ∧ OnlyRegs [] s t) ∧
    (s.flag = true → s.reg b ≠ 0 → ∃ t, exec (.divQ a b) s = .next t ∧
      (t.reg a).toNat = (s.reg a).toNat / (s.reg b).toNat ∧ OnlyRegs [a] s t) ∧
    (s.flag = true → s.reg b = 0 → ∃ t, exec (.divQ a b) s = .next t ∧
      FaultsWith .divideByZero [] s t)

/-! ### Control transfer -/

/-- Rules R107, R127: `JMP` and `JMP?`. The target is not checked; one that cannot be fetched from faults at
the next step. -/
def Obligations.JumpsWriteThePc : Prop :=
  Spells 0x4A 0x20 (fun a _ => .jmp a) ∧ Spells 0x4A 0x3F (fun a _ => .jmpQ a) ∧
  ∀ (a : RegIdx) (s : State),
    (∃ t, exec (.jmp a) s = .next t ∧ t.pc = s.reg a ∧ OnlyRegs [pcIndex] s t ∧
      (s.runState = .fetch → Config.memSize < (s.reg a).toNat + 4 →
        ∃ u, step t = .next u ∧ u.pc = s.reg a ∧ FaultsWith .outOfBounds [] t u)) ∧
    (s.flag = true → ∃ t, exec (.jmpQ a) s = .next t ∧ t.pc = s.reg a ∧ OnlyRegs [pcIndex] s t) ∧
    (s.flag = false → ∃ t, exec (.jmpQ a) s = .next t ∧ OnlyRegs [] s t)

/-- Rule R64: the reserved 16-bit forms take `INVALID_OPCODE`, whatever their operand bytes are. -/
def Obligations.ReservedFormsAreInvalidOpcodes : Prop :=
  Spells 0x3D 0x7B (fun _ _ => .rsvLd16) ∧ Spells 0x7B 0x3D (fun _ _ => .rsvSt16) ∧
  ∀ s : State,
    (∃ t, exec .rsvLd16 s = .next t ∧ FaultsWith .invalidOpcode [] s t) ∧
    (∃ t, exec .rsvSt16 s = .next t ∧ FaultsWith .invalidOpcode [] s t)

/-! ### Syscalls -/

/-- Rules R61, R106, R110, R111: how the three syscall forms are spelled, the fault of missing extension
bytes, and the skipped `SYS?`. -/
def Obligations.SyscallFormsAreSpelled : Prop :=
  Spells 0x53 0x20 .sys ∧ Spells 0x53 0x3F .sysQ ∧
  (∀ op3 op4 e0 e1 e2 e3 rest,
    decode (0x53 :: 0x2B :: op3 :: op4 :: e0 :: e1 :: e2 :: e3 :: rest) =
      .ok (.sysx (regName op3) (regName op4) (regName e0) (regName e1) (regName e2) (regName e3))) ∧
  ExtensionFaults 0x53 0x2B ∧
  ∀ (a b : RegIdx) (s : State), s.flag = false →
    ∃ t, exec (.sysQ a b) s = .next t ∧ OnlyRegs [] s t

/-- Rule R123: syscall 7, `exit`, by `SYS`, `SYS?` or `SYSX`. -/
def Obligations.ExitHaltsWithItsCode : Prop :=
  ∀ (i : Instr) (s : State) (d : RegIdx) (q : SyscallArgs) (p : Word), i.wellFormed = true →
    MakesSyscall i s d q p → q.n = 7 →
    ∃ t, exec i s = .next t ∧ t.pc = p ∧ t.runState = .halted ∧ t.haltCode = q.a1 ∧
      t.faultKind = s.faultKind ∧ KeepsRegs [pcIndex] s t ∧ t.flag = s.flag ∧ KeepsMem s t ∧
      KeepsHost s t ∧ t.anyDraws = s.anyDraws

/-- Rule R124: syscall number 6 and every number above 7. -/
def Obligations.OtherSyscallNumbersAreInvalid : Prop :=
  ∀ (i : Instr) (s : State) (d : RegIdx) (q : SyscallArgs) (p : Word), i.wellFormed = true →
    MakesSyscall i s d q p → (q.n.toNat = 6 ∨ 8 ≤ q.n.toNat) → SyscallFaults i s p .invalidSyscall

/-- Rules R114, R117: syscall 0, `open`. The answer, the queue it is taken from and the record of the call are
the model's (DESIGN CHOICE, log entries 2 and 4). -/
def Obligations.OpenAsksForThePath : Prop :=
  ∀ (i : Instr) (s : State) (d : RegIdx) (q : SyscallArgs) (p : Word), i.wellFormed = true →
    MakesSyscall i s d q p → q.n = 0 →
    (∀ path, HasPath s q.a1 path → ∃ t, exec i s = .next t ∧
      AskedHost (.openFile path q.a2 511) d s.nextAnswer.ret p s t ∧ KeepsMem s t) ∧
    ((∀ k, q.a1.toNat ≤ k → k < Config.memSize → s.mem.readByte k ≠ 0) →
      SyscallFaults i s p .outOfBounds)

/-- Rules R114, R118: syscall 1, `read`. The bytes and the result are those of the host's answer, brought to
the shape the rule gives (`HostAnswersKeepTheirShape`). The answer, how it is brought to that shape, its queue
and the record of the call are the model's (DESIGN CHOICE, log entries 2 and 4). So is what a failed `read`
leaves: rule R118 and U12 leave the whole window unspecified, the model takes the answer's bytes and keeps the
rest of the window (log entry 2). -/
def Obligations.ReadDeliversIntoItsWindow : Prop :=
  ∀ (i : Instr) (s : State) (d : RegIdx) (q : SyscallArgs) (p : Word), i.wellFormed = true →
    MakesSyscall i s d q p → q.n = 1 →
    (q.a2.toNat + q.a3.toNat ≤ Config.memSize → ∃ t, exec i s = .next t ∧
      AskedHost (.read q.a1 q.a3) d (readResult s.nextAnswer q.a3) p s t ∧
      (∀ k (h : k < (readData s.nextAnswer q.a3).length),
        t.mem.readByte (q.a2.toNat + k) = (readData s.nextAnswer q.a3)[k]) ∧
      KeepsMemOutside q.a2.toNat (readData s.nextAnswer q.a3).length s t) ∧
    (Config.memSize < q.a2.toNat + q.a3.toNat → SyscallFaults i s p .outOfBounds)

/-- Rules R114, R119: syscall 2, `write`. The answer, its cut to the count, its queue and the record of the
call are the model's (DESIGN CHOICE, log entries 2 and 4). -/
def Obligations.WriteHandsOverItsBytes : Prop :=
  ∀ (i : Instr) (s : State) (d : RegIdx) (q : SyscallArgs) (p : Word), i.wellFormed = true →
    MakesSyscall i s d q p → q.n = 2 →
    (q.a2.toNat + q.a3.toNat ≤ Config.memSize → ∃ t bytes, exec i s = .next t ∧
      AskedHost (.write q.a1 bytes) d (writeResult s.nextAnswer q.a3) p s t ∧ KeepsMem s t ∧
      bytes.length = q.a3.toNat ∧
      ∀ k (h : k < bytes.length), bytes[k] = s.mem.readByte (q.a2.toNat + k)) ∧
    (Config.memSize < q.a2.toNat + q.a3.toNat → SyscallFaults i s p .outOfBounds)

/-- Rules R120, R121: syscalls 3, `lseek`, always `SEEK_SET`, and 4, `close`. The answer, the 0 of a `close`
that does not fail, the queue and the record of the call are the model's (DESIGN CHOICE, log entries 2
and 4). -/
def Obligations.LseekAndCloseAskTheHost : Prop :=
  ∀ (i : Instr) (s : State) (d : RegIdx) (q : SyscallArgs) (p : Word), i.wellFormed = true →
    MakesSyscall i s d q p →
    (q.n = 3 → ∃ t, exec i s = .next t ∧
      AskedHost (.lseek q.a1 q.a2 .seekSet) d s.nextAnswer.ret p s t ∧ KeepsMem s t) ∧
    (q.n = 4 → ∃ t, exec i s = .next t ∧
      AskedHost (.close q.a1) d (closeResult s.nextAnswer) p s t ∧ KeepsMem s t)

/-- Rules R115, R116, R118, R119, R121 and U12: the shape of what the host answers, and that every answer of
that shape is one the next call can be given: the first answer the state holds is the one used, and an answer
of the shape is passed on as it is, the bytes of a `read` that failed included. That answers stand in a queue,
the free value when it is empty, and how any other answer is brought to the shape are the model's
(DESIGN CHOICE, log entry 2). -/
def Obligations.HostAnswersKeepTheirShape : Prop :=
  (∀ (s : State) (ans : HostAnswer) (rest : List HostAnswer),
    s.hostAnswers = ans :: rest → s.nextAnswer = ans) ∧
  (∀ s : State, s.hostAnswers = [] → s.nextAnswer = Config.hostAnswer s.hostCalls.length) ∧
  ∀ (ans : HostAnswer) (count : Word),
    (ans.ret.toNat < 2 ^ 31 →
      (readResult ans count).toNat = (readData ans count).length ∧
      (readResult ans count).toNat ≤ count.toNat ∧
      (writeResult ans count).toNat ≤ count.toNat ∧ closeResult ans = 0) ∧
    (2 ^ 31 ≤ ans.ret.toNat →
      readResult ans count = ans.ret ∧ writeResult ans count = ans.ret ∧
      closeResult ans = ans.ret ∧ (readData ans count).length ≤ count.toNat ∧
      (ans.data.length ≤ count.toNat → readData ans count = ans.data)) ∧
    (ans.ret.toNat < 2 ^ 31 → ans.ret.toNat ≤ count.toNat →
      writeResult ans count = ans.ret ∧
      (ans.data.length = ans.ret.toNat →
        readResult ans count = ans.ret ∧ readData ans count = ans.data))

/-- Rule R122: syscall 5, `getargv`: the probe, the fill and the fault, with the exact required size
written out. -/
def Obligations.GetargvProbesOrFills : Prop :=
  ∀ (i : Instr) (s : State) (d : RegIdx) (q : SyscallArgs) (p : Word) (required : Nat),
    i.wellFormed = true → MakesSyscall i s d q p → q.n = 5 →
    required = 4 * (s.guestArgv.length + 1) + (s.guestArgv.map fun g => g.length + 1).sum →
    (q.a2.toNat < required → ∃ t, exec i s = .next t ∧ t.pc = p ∧
      t.reg d = BitVec.ofNat 32 required ∧ OnlyRegs [d, pcIndex] s t) ∧
    (required ≤ q.a2.toNat →
      (q.a1.toNat + required ≤ Config.memSize → ∃ t, exec i s = .next t ∧ t.pc = p ∧
        t.reg d = BitVec.ofNat 32 required ∧ KeepsRegs [d, pcIndex] s t ∧
        t.flag = s.flag ∧ KeepsStatus s t ∧ KeepsHost s t ∧ t.anyDraws = s.anyDraws ∧
        KeepsMemOutside q.a1.toNat required s t) ∧
      (Config.memSize < q.a1.toNat + required → SyscallFaults i s p .outOfBounds))

/-- Rule R122: the bytes a filling `getargv` writes. Word `j` of the array at `a1` is the address of string
`j`, a zero word ends the array, and string `j` stands there, ended by a zero byte, directly after the
string before it. -/
def Obligations.GetargvWritesOffsetsThenStrings : Prop :=
  ∀ (i : Instr) (s t : State) (d : RegIdx) (q : SyscallArgs) (p : Word) (required : Nat),
    i.wellFormed = true → MakesSyscall i s d q p → q.n = 5 →
    required = 4 * (s.guestArgv.length + 1) + (s.guestArgv.map fun g => g.length + 1).sum →
    required ≤ q.a2.toNat → q.a1.toNat + required ≤ Config.memSize → exec i s = .next t →
    t.mem.word (q.a1.toNat + 4 * s.guestArgv.length) = 0 ∧
    ∀ j (hj : j < s.guestArgv.length),
      t.mem.word (q.a1.toNat + 4 * j) =
        q.a1.toNat + 4 * (s.guestArgv.length + 1) +
          ((s.guestArgv.take j).map fun g => g.length + 1).sum ∧
      t.mem.readByte (t.mem.word (q.a1.toNat + 4 * j) + s.guestArgv[j].length) = 0 ∧
      ∀ k (hk : k < s.guestArgv[j].length),
        t.mem.readByte (t.mem.word (q.a1.toNat + 4 * j) + k) = s.guestArgv[j][k]
end

