-- ==== Sys2Proof/Laws/Decode.lean ====
section
/-! SUPPORT. What decoding does: register names and their characters, the rows an instruction comes from. -/

namespace Sys2Proof

/-- The character of a nameable register names it (rule R57). -/
theorem regName_regChar {r : RegIdx} (h : r.nameable = true) : regName (regChar r) = r := by
  revert h
  revert r
  decide

/-- Whatever a byte is, it names a register that can be named (rules R14, R57). -/
theorem regName_nameable (c : Byte) : (regName c).nameable = true := by
  unfold regName RegIdx.nameable
  split
  · simp only [Fin.val_ofNat, decide_eq_true_eq]; omega
  · split
    · simp only [Fin.val_ofNat, decide_eq_true_eq]; omega
    · split
      · simp only [Fin.val_ofNat, decide_eq_true_eq]; omega
      · decide

theorem mem_of_lookup {α β : Type} [BEq α] [LawfulBEq α] {k : α} {v : β} :
    ∀ {l : List (α × β)}, l.lookup k = some v → (k, v) ∈ l
  | [], h => by simp at h
  | (j, w) :: l, h => by
    rw [List.lookup_cons] at h
    split at h
    · rename_i hk
      obtain rfl := eq_of_beq hk
      obtain rfl := Option.some.inj h
      exact List.mem_cons_self
    · exact List.mem_cons_of_mem _ (mem_of_lookup h)

/-- An instruction that was decoded comes from a row of the opcode map, built from the registers its
operand bytes name and, in a long row, from the four bytes after the window. -/
theorem decode_ok_cases {op1 op2 op3 op4 : Byte} {rest : List Byte} {i : Instr}
    (h : decode (op1 :: op2 :: op3 :: op4 :: rest) = .ok i) :
    (∃ build, ((op1, op2), build) ∈ shortRows ∧ longRows.lookup (op1, op2) = none ∧
      i = build (regName op3) (regName op4)) ∨
    (∃ build e0 e1 e2 e3 tail, ((op1, op2), build) ∈ longRows ∧
      rest = e0 :: e1 :: e2 :: e3 :: tail ∧
      i = build (regName op3) (regName op4) e0 e1 e2 e3) := by
  simp only [decode] at h
  split at h
  · rename_i build hb
    split at h
    · exact .inr ⟨build, _, _, _, _, _, mem_of_lookup hb, rfl, (Except.ok.inj h).symm⟩
    · cases h
  · rename_i hl
    split at h
    · rename_i build hb
      exact .inl ⟨build, mem_of_lookup hb, hl, (Except.ok.inj h).symm⟩
    · cases h

/-- The bytes that are a whole window or more and are no instruction hold a pair of no row, or too few
extension bytes. -/
theorem decode_error_cases {op1 op2 op3 op4 : Byte} {rest : List Byte} {e : DecodeError}
    (h : decode (op1 :: op2 :: op3 :: op4 :: rest) = .error e) :
    (hasExtension op1 op2 = true ∧ rest.length < 4 ∧ e = .extensionIncomplete) ∨
    (hasExtension op1 op2 = false ∧ shortRows.lookup (op1, op2) = none ∧ e = .invalidOpcode op1 op2) := by
  simp only [decode] at h
  split at h
  · rename_i build hb
    split at h
    · cases h
    · rename_i hrest
      refine .inl ⟨by simp [hasExtension, hb], ?_, (Except.error.inj h).symm⟩
      match rest, hrest with
      | [], _ | [_], _ | [_, _], _ | [_, _, _], _ => simp
      | _ :: _ :: _ :: _ :: _, hrest => exact absurd rfl (hrest _ _ _ _ _)
  · rename_i hl
    split at h
    · cases h
    · rename_i hs
      exact .inr ⟨by simp [hasExtension, hl], hs, (Except.error.inj h).symm⟩

/-- Bytes past a four-byte form are not looked at. -/
theorem decode_short {op1 op2 : Byte} (h : hasExtension op1 op2 = false) (op3 op4 : Byte)
    (rest : List Byte) :
    decode (op1 :: op2 :: op3 :: op4 :: rest) = decode [op1, op2, op3, op4] := by
  unfold hasExtension at h
  cases hl : longRows.lookup (op1, op2) with
  | none => simp only [decode, hl]
  | some _ => rw [hl] at h; cases h

end Sys2Proof
end

