-- ==== Sys2Proof/Laws/Memory.lean ====
section
/-! SUPPORT. The laws of the Memory Image: what a byte reads as after a write, and that every memory
operation keeps the canonical form. -/

namespace Sys2Proof.Machine

/-! ### Reading after writing -/

@[simp] theorem Memory.readByte_nil (a : Nat) : Memory.readByte [] a = 0 := rfl

theorem Memory.readByte_erase (m : Memory) (a n : Nat) :
    (m.erase a).readByte n = if n = a then 0 else m.readByte n := by
  induction m with
  | nil => simp [Memory.erase]
  | cons c rest ih =>
    obtain ⟨b, w⟩ := c
    simp only [Memory.erase]
    by_cases hab : a = b
    · subst hab
      rw [if_pos rfl, ih]
      by_cases hn : n = a <;> simp [Memory.readByte, hn]
    · rw [if_neg hab]
      simp only [Memory.readByte, ih]
      by_cases hn : n = b
      · subst hn; simp [Ne.symm hab]
      · simp [hn]

theorem Memory.readByte_insert {m : Memory} {a : Nat} (hm : ∀ c ∈ m, c.1 ≠ a) (v : Byte) (n : Nat) :
    (m.insert a v).readByte n = if n = a then v else m.readByte n := by
  induction m with
  | nil => simp [Memory.insert, Memory.readByte]
  | cons c rest ih =>
    obtain ⟨b, w⟩ := c
    have hb : b ≠ a := hm (b, w) List.mem_cons_self
    simp only [Memory.insert]
    split
    · simp [Memory.readByte]
    · simp only [Memory.readByte, ih fun c hc => hm c (List.mem_cons_of_mem _ hc)]
      by_cases hn : n = b
      · subst hn; simp [hb]
      · simp [hn]

theorem Memory.erase_ne {m : Memory} {a : Nat} : ∀ c ∈ m.erase a, c.1 ≠ a := by
  induction m with
  | nil => simp [Memory.erase]
  | cons c rest ih =>
    obtain ⟨b, w⟩ := c
    simp only [Memory.erase]
    split
    · exact ih
    · intro c hc
      rcases List.mem_cons.1 hc with rfl | hc
      · exact Ne.symm (by assumption)
      · exact ih c hc

/-- A byte after a write: the value written at that address, the old value at every other. -/
theorem Memory.readByte_writeByte (m : Memory) (a n : Nat) (v : Byte) :
    (m.writeByte a v).readByte n = if n = a then v else m.readByte n := by
  unfold Memory.writeByte
  split
  · subst v; exact Memory.readByte_erase m a n
  · rw [Memory.readByte_insert Memory.erase_ne, Memory.readByte_erase]
    split <;> simp_all

/-- A byte after writing bytes from `a` up: the byte written there, the old value outside them. -/
theorem Memory.readByte_writeBytes (m : Memory) (a n : Nat) (bs : List Byte) :
    (m.writeBytes a bs).readByte n =
      if h : a ≤ n ∧ n < a + bs.length then bs[n - a]'(by omega) else m.readByte n := by
  induction bs generalizing m a with
  | nil =>
    rw [dif_neg (by simp only [List.length_nil]; omega)]
    rfl
  | cons b bs ih =>
    simp only [Memory.writeBytes, ih, Memory.readByte_writeByte, List.length_cons]
    by_cases hn : n = a
    · subst hn
      rw [dif_neg (by omega), dif_pos (by omega), if_pos rfl]
      simp
    · by_cases h : a + 1 ≤ n ∧ n < a + 1 + bs.length
      · rw [dif_pos h, dif_pos (by omega)]
        rw [List.getElem_cons]
        rw [dif_neg (by omega)]
        congr 1
      · rw [dif_neg h, dif_neg (by omega), if_neg hn]

/-- Outside the bytes written, memory reads as before. -/
theorem Memory.readByte_writeBytes_outside {m : Memory} {a n : Nat} {bs : List Byte}
    (h : n < a ∨ a + bs.length ≤ n) : (m.writeBytes a bs).readByte n = m.readByte n := by
  rw [Memory.readByte_writeBytes, dif_neg (by omega)]

/-- Inside the bytes written, memory reads as the byte written there. -/
theorem Memory.readByte_writeBytes_inside {m : Memory} {a k : Nat} {bs : List Byte}
    (h : k < bs.length) : (m.writeBytes a bs).readByte (a + k) = bs[k] := by
  rw [Memory.readByte_writeBytes, dif_pos (by omega)]
  congr 1
  omega

@[simp] theorem Memory.length_readBytes (m : Memory) (a n : Nat) : (m.readBytes a n).length = n := by
  induction n generalizing a with
  | zero => rfl
  | succ n ih => simp [Memory.readBytes, ih]

theorem Memory.getElem_readBytes (m : Memory) (a n k : Nat) (h : k < (m.readBytes a n).length) :
    (m.readBytes a n)[k] = m.readByte (a + k) := by
  induction n generalizing a k with
  | zero => simp at h
  | succ n ih =>
    cases k with
    | zero => rfl
    | succ k =>
      simp only [Memory.readBytes, List.getElem_cons_succ]
      rw [ih (a + 1) k (by simpa [Memory.readBytes] using h)]
      congr 1
      omega

theorem Memory.readBytes_one (m : Memory) (a : Nat) : m.readBytes a 1 = [m.readByte a] := rfl

theorem Memory.readBytes_four (m : Memory) (a : Nat) :
    m.readBytes a 4 =
      [m.readByte a, m.readByte (a + 1), m.readByte (a + 2), m.readByte (a + 3)] := rfl

@[simp] theorem length_leBytes (n : Nat) (v : Word) : (leBytes n v).length = n := by
  induction n generalizing v with
  | zero => rfl
  | succ n ih => simp [leBytes, ih]

/-! ### The canonical form -/

/-- No cell of `m` lies below `n`: what `Memory.wf` asks of the cells after one at `n - 1`. -/
def Memory.above (n : Nat) (m : Memory) : Prop := ∀ c ∈ m, n ≤ c.1

@[simp] theorem Memory.wf_nil : Memory.wf [] = true := rfl

theorem Memory.wf_cons_iff (a : Nat) (v : Byte) (m : Memory) :
    Memory.wf ((a, v) :: m) = true ↔
      a < Config.memSize ∧ v ≠ 0 ∧ Memory.above (a + 1) m ∧ Memory.wf m = true := by
  induction m generalizing a v with
  | nil => simp [Memory.wf, Memory.above]
  | cons c rest ih =>
    obtain ⟨b, w⟩ := c
    constructor
    · intro h
      simp only [Memory.wf, Bool.and_eq_true, decide_eq_true_eq] at h
      obtain ⟨⟨hab, hv⟩, hrest⟩ := h
      obtain ⟨hb, -, habove, -⟩ := (ih b w).1 hrest
      refine ⟨by omega, hv, ?_, hrest⟩
      intro c hc
      rcases List.mem_cons.1 hc with rfl | hc
      · exact hab
      · have := habove c hc; omega
    · rintro ⟨-, hv, habove, hrest⟩
      have hab : a < b := habove (b, w) List.mem_cons_self
      simp only [Memory.wf, Bool.and_eq_true, decide_eq_true_eq]
      exact ⟨⟨hab, hv⟩, hrest⟩

theorem Memory.erase_mem {m : Memory} {a : Nat} {c : Host.Cell} (h : c ∈ m.erase a) : c ∈ m := by
  induction m with
  | nil => exact h
  | cons d rest ih =>
    obtain ⟨b, w⟩ := d
    simp only [Memory.erase] at h
    split at h
    · exact List.mem_cons_of_mem _ (ih h)
    · rcases List.mem_cons.1 h with rfl | h
      · exact List.mem_cons_self
      · exact List.mem_cons_of_mem _ (ih h)

theorem Memory.erase_wf {m : Memory} (a : Nat) (hm : m.wf = true) : (m.erase a).wf = true := by
  induction m with
  | nil => rfl
  | cons c rest ih =>
    obtain ⟨b, w⟩ := c
    obtain ⟨hb, hw, habove, hrest⟩ := (Memory.wf_cons_iff b w rest).1 hm
    simp only [Memory.erase]
    split
    · exact ih hrest
    · exact (Memory.wf_cons_iff _ _ _).2 ⟨hb, hw, fun c hc => habove c (Memory.erase_mem hc), ih hrest⟩

theorem Memory.insert_above {m : Memory} {n a : Nat} {v : Byte} (hm : m.above n) (ha : n ≤ a) :
    (m.insert a v).above n := by
  induction m with
  | nil => simpa [Memory.insert, Memory.above] using ha
  | cons c rest ih =>
    obtain ⟨b, w⟩ := c
    simp only [Memory.insert]
    split
    · intro c hc
      rcases List.mem_cons.1 hc with rfl | hc
      · exact ha
      · exact hm c hc
    · intro c hc
      rcases List.mem_cons.1 hc with rfl | hc
      · exact hm _ List.mem_cons_self
      · exact ih (fun c hc => hm c (List.mem_cons_of_mem _ hc)) c hc

theorem Memory.insert_wf {m : Memory} {a : Nat} {v : Byte} (ha : a < Config.memSize) (hv : v ≠ 0)
    (hne : ∀ c ∈ m, c.1 ≠ a) (hm : m.wf = true) : (m.insert a v).wf = true := by
  induction m with
  | nil => exact (Memory.wf_cons_iff a v []).2 ⟨ha, hv, by simp [Memory.above], rfl⟩
  | cons c rest ih =>
    obtain ⟨b, w⟩ := c
    obtain ⟨hb, hw, habove, hrest⟩ := (Memory.wf_cons_iff b w rest).1 hm
    have hba : b ≠ a := hne (b, w) List.mem_cons_self
    simp only [Memory.insert]
    split
    · refine (Memory.wf_cons_iff _ _ _).2 ⟨ha, hv, fun c hc => ?_, hm⟩
      rcases List.mem_cons.1 hc with rfl | hc
      · assumption
      · have := habove c hc; omega
    · exact (Memory.wf_cons_iff _ _ _).2 ⟨hb, hw, Memory.insert_above habove (by omega),
        ih (fun c hc => hne c (List.mem_cons_of_mem _ hc)) hrest⟩

/-- Writing one byte below `MEM_SIZE` keeps the canonical form. -/
theorem Memory.writeByte_wf {m : Memory} {a : Nat} (v : Byte) (ha : a < Config.memSize)
    (hm : m.wf = true) : (m.writeByte a v).wf = true := by
  unfold Memory.writeByte
  split
  · exact Memory.erase_wf a hm
  · exact Memory.insert_wf ha (by assumption) Memory.erase_ne (Memory.erase_wf a hm)

/-- Writing bytes that all lie below `MEM_SIZE` keeps the canonical form. -/
theorem Memory.writeBytes_wf {m : Memory} {a : Nat} (bs : List Byte)
    (ha : a + bs.length ≤ Config.memSize) (hm : m.wf = true) : (m.writeBytes a bs).wf = true := by
  induction bs generalizing m a with
  | nil => exact hm
  | cons b bs ih =>
    simp only [List.length_cons] at ha
    exact ih (by omega) (Memory.writeByte_wf b (by omega) hm)

theorem placeBytes_wf {m : Memory} {a : Nat} (bs : List Byte) (hm : m.wf = true) :
    (placeBytes m a bs).wf = true := by
  induction bs generalizing m a with
  | nil => exact hm
  | cons b bs ih =>
    simp only [placeBytes]
    split
    · exact ih (Memory.writeByte_wf b (by assumption) hm)
    · exact ih hm

theorem imageMemory_wf {image : List Byte} (h : image.length ≤ Config.memSize) :
    (imageMemory image).wf = true :=
  Memory.writeBytes_wf image (by omega) rfl

end Sys2Proof.Machine
end

