-- ==== Sys2Proof/Laws/State.lean ====
section
/-! SUPPORT. What each update of the state leaves in each field, one lemma per field per update, and what a
register reads after it. No later proof unfolds a record update. -/

namespace Sys2Proof.Machine

/-! ### Fields -/

@[simp] theorem setReg_flag (s : State) (i : RegIdx) (v : Word) :
    (s.setReg i v).flag = s.flag := rfl
@[simp] theorem setReg_mem (s : State) (i : RegIdx) (v : Word) :
    (s.setReg i v).mem = s.mem := rfl
@[simp] theorem setReg_runState (s : State) (i : RegIdx) (v : Word) :
    (s.setReg i v).runState = s.runState := rfl
@[simp] theorem setReg_faultKind (s : State) (i : RegIdx) (v : Word) :
    (s.setReg i v).faultKind = s.faultKind := rfl
@[simp] theorem setReg_haltCode (s : State) (i : RegIdx) (v : Word) :
    (s.setReg i v).haltCode = s.haltCode := rfl
@[simp] theorem setReg_guestArgv (s : State) (i : RegIdx) (v : Word) :
    (s.setReg i v).guestArgv = s.guestArgv := rfl
@[simp] theorem setReg_hostAnswers (s : State) (i : RegIdx) (v : Word) :
    (s.setReg i v).hostAnswers = s.hostAnswers := rfl
@[simp] theorem setReg_hostCalls (s : State) (i : RegIdx) (v : Word) :
    (s.setReg i v).hostCalls = s.hostCalls := rfl
@[simp] theorem setReg_anyDraws (s : State) (i : RegIdx) (v : Word) :
    (s.setReg i v).anyDraws = s.anyDraws := rfl

@[simp] theorem setPc_flag (s : State) (v : Word) :
    (s.setPc v).flag = s.flag := rfl
@[simp] theorem setPc_mem (s : State) (v : Word) :
    (s.setPc v).mem = s.mem := rfl
@[simp] theorem setPc_runState (s : State) (v : Word) :
    (s.setPc v).runState = s.runState := rfl
@[simp] theorem setPc_faultKind (s : State) (v : Word) :
    (s.setPc v).faultKind = s.faultKind := rfl
@[simp] theorem setPc_haltCode (s : State) (v : Word) :
    (s.setPc v).haltCode = s.haltCode := rfl
@[simp] theorem setPc_guestArgv (s : State) (v : Word) :
    (s.setPc v).guestArgv = s.guestArgv := rfl
@[simp] theorem setPc_hostAnswers (s : State) (v : Word) :
    (s.setPc v).hostAnswers = s.hostAnswers := rfl
@[simp] theorem setPc_hostCalls (s : State) (v : Word) :
    (s.setPc v).hostCalls = s.hostCalls := rfl
@[simp] theorem setPc_anyDraws (s : State) (v : Word) :
    (s.setPc v).anyDraws = s.anyDraws := rfl

@[simp] theorem advance_flag (s : State) :
    (s.advance).flag = s.flag := rfl
@[simp] theorem advance_mem (s : State) :
    (s.advance).mem = s.mem := rfl
@[simp] theorem advance_runState (s : State) :
    (s.advance).runState = s.runState := rfl
@[simp] theorem advance_faultKind (s : State) :
    (s.advance).faultKind = s.faultKind := rfl
@[simp] theorem advance_haltCode (s : State) :
    (s.advance).haltCode = s.haltCode := rfl
@[simp] theorem advance_guestArgv (s : State) :
    (s.advance).guestArgv = s.guestArgv := rfl
@[simp] theorem advance_hostAnswers (s : State) :
    (s.advance).hostAnswers = s.hostAnswers := rfl
@[simp] theorem advance_hostCalls (s : State) :
    (s.advance).hostCalls = s.hostCalls := rfl
@[simp] theorem advance_anyDraws (s : State) :
    (s.advance).anyDraws = s.anyDraws := rfl

@[simp] theorem setFlag_x (s : State) (v : Bool) :
    (s.setFlag v).x = s.x := rfl
@[simp] theorem setFlag_flag (s : State) (v : Bool) :
    (s.setFlag v).flag = v := rfl
@[simp] theorem setFlag_mem (s : State) (v : Bool) :
    (s.setFlag v).mem = s.mem := rfl
@[simp] theorem setFlag_runState (s : State) (v : Bool) :
    (s.setFlag v).runState = s.runState := rfl
@[simp] theorem setFlag_faultKind (s : State) (v : Bool) :
    (s.setFlag v).faultKind = s.faultKind := rfl
@[simp] theorem setFlag_haltCode (s : State) (v : Bool) :
    (s.setFlag v).haltCode = s.haltCode := rfl
@[simp] theorem setFlag_guestArgv (s : State) (v : Bool) :
    (s.setFlag v).guestArgv = s.guestArgv := rfl
@[simp] theorem setFlag_hostAnswers (s : State) (v : Bool) :
    (s.setFlag v).hostAnswers = s.hostAnswers := rfl
@[simp] theorem setFlag_hostCalls (s : State) (v : Bool) :
    (s.setFlag v).hostCalls = s.hostCalls := rfl
@[simp] theorem setFlag_anyDraws (s : State) (v : Bool) :
    (s.setFlag v).anyDraws = s.anyDraws := rfl

@[simp] theorem setMem_x (s : State) (m : Memory) :
    (s.setMem m).x = s.x := rfl
@[simp] theorem setMem_flag (s : State) (m : Memory) :
    (s.setMem m).flag = s.flag := rfl
@[simp] theorem setMem_mem (s : State) (m : Memory) :
    (s.setMem m).mem = m := rfl
@[simp] theorem setMem_runState (s : State) (m : Memory) :
    (s.setMem m).runState = s.runState := rfl
@[simp] theorem setMem_faultKind (s : State) (m : Memory) :
    (s.setMem m).faultKind = s.faultKind := rfl
@[simp] theorem setMem_haltCode (s : State) (m : Memory) :
    (s.setMem m).haltCode = s.haltCode := rfl
@[simp] theorem setMem_guestArgv (s : State) (m : Memory) :
    (s.setMem m).guestArgv = s.guestArgv := rfl
@[simp] theorem setMem_hostAnswers (s : State) (m : Memory) :
    (s.setMem m).hostAnswers = s.hostAnswers := rfl
@[simp] theorem setMem_hostCalls (s : State) (m : Memory) :
    (s.setMem m).hostCalls = s.hostCalls := rfl
@[simp] theorem setMem_anyDraws (s : State) (m : Memory) :
    (s.setMem m).anyDraws = s.anyDraws := rfl

@[simp] theorem drawAny_x (s : State) :
    (s.drawAny).x = s.x := rfl
@[simp] theorem drawAny_flag (s : State) :
    (s.drawAny).flag = s.flag := rfl
@[simp] theorem drawAny_mem (s : State) :
    (s.drawAny).mem = s.mem := rfl
@[simp] theorem drawAny_runState (s : State) :
    (s.drawAny).runState = s.runState := rfl
@[simp] theorem drawAny_faultKind (s : State) :
    (s.drawAny).faultKind = s.faultKind := rfl
@[simp] theorem drawAny_haltCode (s : State) :
    (s.drawAny).haltCode = s.haltCode := rfl
@[simp] theorem drawAny_guestArgv (s : State) :
    (s.drawAny).guestArgv = s.guestArgv := rfl
@[simp] theorem drawAny_hostAnswers (s : State) :
    (s.drawAny).hostAnswers = s.hostAnswers := rfl
@[simp] theorem drawAny_hostCalls (s : State) :
    (s.drawAny).hostCalls = s.hostCalls := rfl
@[simp] theorem drawAny_anyDraws (s : State) :
    (s.drawAny).anyDraws = s.anyDraws + 1 := rfl

@[simp] theorem raise_x (s : State) (c : FaultCause) :
    (s.raise c).x = s.x := rfl
@[simp] theorem raise_flag (s : State) (c : FaultCause) :
    (s.raise c).flag = s.flag := rfl
@[simp] theorem raise_mem (s : State) (c : FaultCause) :
    (s.raise c).mem = s.mem := rfl
@[simp] theorem raise_runState (s : State) (c : FaultCause) :
    (s.raise c).runState = .halted := rfl
@[simp] theorem raise_faultKind (s : State) (c : FaultCause) :
    (s.raise c).faultKind = c.kind := rfl
@[simp] theorem raise_haltCode (s : State) (c : FaultCause) :
    (s.raise c).haltCode = Config.fatalExitCode := rfl
@[simp] theorem raise_guestArgv (s : State) (c : FaultCause) :
    (s.raise c).guestArgv = s.guestArgv := rfl
@[simp] theorem raise_hostAnswers (s : State) (c : FaultCause) :
    (s.raise c).hostAnswers = s.hostAnswers := rfl
@[simp] theorem raise_hostCalls (s : State) (c : FaultCause) :
    (s.raise c).hostCalls = s.hostCalls := rfl
@[simp] theorem raise_anyDraws (s : State) (c : FaultCause) :
    (s.raise c).anyDraws = s.anyDraws := rfl

@[simp] theorem halt_x (s : State) (code : Word) :
    (s.halt code).x = s.x := rfl
@[simp] theorem halt_flag (s : State) (code : Word) :
    (s.halt code).flag = s.flag := rfl
@[simp] theorem halt_mem (s : State) (code : Word) :
    (s.halt code).mem = s.mem := rfl
@[simp] theorem halt_runState (s : State) (code : Word) :
    (s.halt code).runState = .halted := rfl
@[simp] theorem halt_faultKind (s : State) (code : Word) :
    (s.halt code).faultKind = s.faultKind := rfl
@[simp] theorem halt_haltCode (s : State) (code : Word) :
    (s.halt code).haltCode = code := rfl
@[simp] theorem halt_guestArgv (s : State) (code : Word) :
    (s.halt code).guestArgv = s.guestArgv := rfl
@[simp] theorem halt_hostAnswers (s : State) (code : Word) :
    (s.halt code).hostAnswers = s.hostAnswers := rfl
@[simp] theorem halt_hostCalls (s : State) (code : Word) :
    (s.halt code).hostCalls = s.hostCalls := rfl
@[simp] theorem halt_anyDraws (s : State) (code : Word) :
    (s.halt code).anyDraws = s.anyDraws := rfl

@[simp] theorem askHost_x (s : State) (c : HostCall) :
    (s.askHost c).x = s.x := rfl
@[simp] theorem askHost_flag (s : State) (c : HostCall) :
    (s.askHost c).flag = s.flag := rfl
@[simp] theorem askHost_mem (s : State) (c : HostCall) :
    (s.askHost c).mem = s.mem := rfl
@[simp] theorem askHost_runState (s : State) (c : HostCall) :
    (s.askHost c).runState = s.runState := rfl
@[simp] theorem askHost_faultKind (s : State) (c : HostCall) :
    (s.askHost c).faultKind = s.faultKind := rfl
@[simp] theorem askHost_haltCode (s : State) (c : HostCall) :
    (s.askHost c).haltCode = s.haltCode := rfl
@[simp] theorem askHost_guestArgv (s : State) (c : HostCall) :
    (s.askHost c).guestArgv = s.guestArgv := rfl
@[simp] theorem askHost_hostAnswers (s : State) (c : HostCall) :
    (s.askHost c).hostAnswers = s.hostAnswers.tail := rfl
@[simp] theorem askHost_hostCalls (s : State) (c : HostCall) :
    (s.askHost c).hostCalls = s.hostCalls ++ [c] := rfl
@[simp] theorem askHost_anyDraws (s : State) (c : HostCall) :
    (s.askHost c).anyDraws = s.anyDraws := rfl

/-! ### Registers -/

theorem reg_setReg (s : State) (i r : RegIdx) (v : Word) :
    (s.setReg i v).reg r = if r = i then v else s.reg r := by
  by_cases h : r = i
  · subst h; simp [State.reg, State.setReg, Vector.get_eq_getElem]
  · have : (i : Nat) ≠ r := fun e => h (Fin.ext e.symm)
    simp [State.reg, State.setReg, Vector.get_eq_getElem, h, this]

@[simp] theorem reg_setReg_same (s : State) (i : RegIdx) (v : Word) : (s.setReg i v).reg i = v := by
  simp [reg_setReg]

@[simp] theorem reg_setReg_ne (s : State) {i r : RegIdx} (v : Word) (h : r ≠ i) :
    (s.setReg i v).reg r = s.reg r := by
  simp [reg_setReg, h]

@[simp] theorem pc_setReg_ne (s : State) {i : RegIdx} (v : Word) (h : pcIndex ≠ i) :
    (s.setReg i v).pc = s.pc :=
  reg_setReg_ne s v h

theorem reg_pcIndex (s : State) : s.reg pcIndex = s.pc := rfl

@[simp] theorem pc_setPc (s : State) (v : Word) : (s.setPc v).pc = v := reg_setReg_same s pcIndex v

@[simp] theorem reg_setPc_ne (s : State) {r : RegIdx} (v : Word) (h : r ≠ pcIndex) :
    (s.setPc v).reg r = s.reg r :=
  reg_setReg_ne s v h

@[simp] theorem pc_advance (s : State) : s.advance.pc = s.pc + 4 := pc_setPc s _

@[simp] theorem reg_advance_ne (s : State) {r : RegIdx} (h : r ≠ pcIndex) :
    s.advance.reg r = s.reg r :=
  reg_setPc_ne s _ h

@[simp] theorem reg_setFlag (s : State) (v : Bool) (r : RegIdx) : (s.setFlag v).reg r = s.reg r := rfl
@[simp] theorem pc_setFlag (s : State) (v : Bool) : (s.setFlag v).pc = s.pc := rfl
@[simp] theorem reg_setMem (s : State) (m : Memory) (r : RegIdx) : (s.setMem m).reg r = s.reg r := rfl
@[simp] theorem pc_setMem (s : State) (m : Memory) : (s.setMem m).pc = s.pc := rfl
@[simp] theorem reg_drawAny (s : State) (r : RegIdx) : (s.drawAny).reg r = s.reg r := rfl
@[simp] theorem pc_drawAny (s : State) : (s.drawAny).pc = s.pc := rfl
@[simp] theorem reg_raise (s : State) (c : FaultCause) (r : RegIdx) : (s.raise c).reg r = s.reg r := rfl
@[simp] theorem pc_raise (s : State) (c : FaultCause) : (s.raise c).pc = s.pc := rfl
@[simp] theorem reg_halt (s : State) (code : Word) (r : RegIdx) : (s.halt code).reg r = s.reg r := rfl
@[simp] theorem pc_halt (s : State) (code : Word) : (s.halt code).pc = s.pc := rfl
@[simp] theorem reg_askHost (s : State) (c : HostCall) (r : RegIdx) : (s.askHost c).reg r = s.reg r := rfl
@[simp] theorem pc_askHost (s : State) (c : HostCall) : (s.askHost c).pc = s.pc := rfl

/-- A register an operand byte can name is not the program counter (rule R14). -/
theorem nameable_ne_pc {r : RegIdx} (h : r.nameable = true) : r ≠ pcIndex := by
  rintro rfl
  exact absurd h (by decide)

end Sys2Proof.Machine
end

