-- ==== Sys2Proof/Laws/Ops.lean ====
section
/-! SUPPORT. For each shared operation, once, everything it can do. -/

namespace Sys2Proof.Machine

/-! ### Bounds and memory accesses -/

theorem inBounds_iff (a : Word) (n : Nat) :
    inBounds a n = true ↔ a.toNat + n ≤ Config.memSize := by simp [inBounds]

/-- `MemRead` answers the little-endian number of its bytes exactly when they lie in memory. -/
theorem memRead_eq_some {s : State} {a : Word} {n : Nat} {v : Word} :
    s.memRead a n = some v ↔
      a.toNat + n ≤ Config.memSize ∧ v = BitVec.ofNat 32 (leNat (s.mem.readBytes a.toNat n)) := by
  simp [State.memRead, inBounds, eq_comm]

theorem memRead_eq_none {s : State} {a : Word} {n : Nat} :
    s.memRead a n = none ↔ Config.memSize < a.toNat + n := by
  simp [State.memRead, inBounds]

/-- `MemWrite` answers the state with its bytes written exactly when they lie in memory. -/
theorem memWrite_eq_some {s t : State} {a : Word} {n : Nat} {v : Word} :
    s.memWrite a n v = some t ↔
      a.toNat + n ≤ Config.memSize ∧ t = s.setMem (s.mem.writeBytes a.toNat (leBytes n v)) := by
  simp [State.memWrite, inBounds, eq_comm]

theorem memWrite_eq_none {s : State} {a : Word} {n : Nat} {v : Word} :
    s.memWrite a n v = none ↔ Config.memSize < a.toNat + n := by
  simp [State.memWrite, inBounds]

theorem fetchBytes_of_fits {s : State} {a : Word} (h : a.toNat + 4 ≤ Config.memSize) :
    s.fetchBytes a = some (s.mem.readByte a.toNat, s.mem.readByte (a.toNat + 1),
      s.mem.readByte (a.toNat + 2), s.mem.readByte (a.toNat + 3)) := by
  simp [State.fetchBytes, inBounds, h]

theorem fetchBytes_of_not_fits {s : State} {a : Word} (h : Config.memSize < a.toNat + 4) :
    s.fetchBytes a = none := by
  simp [State.fetchBytes, inBounds, h]

/-! ### Shapes of instructions -/

/-- A load writes the value read to its destination, or takes `OUT_OF_BOUNDS`. -/
theorem loadForm_cases (n : Nat) (a b : RegIdx) (s : State) :
    ((s.reg b).toNat + n ≤ Config.memSize ∧ loadForm n a b s =
        s.setReg a (BitVec.ofNat 32 (leNat (s.mem.readBytes (s.reg b).toNat n)))) ∨
    (Config.memSize < (s.reg b).toNat + n ∧
        loadForm n a b s = s.raise (.outOfBounds (s.reg b))) := by
  unfold loadForm
  split
  · rename_i v h
    obtain ⟨hb, rfl⟩ := memRead_eq_some.1 h
    exact .inl ⟨hb, rfl⟩
  · rename_i h
    exact .inr ⟨memRead_eq_none.1 h, rfl⟩

/-- A store writes its bytes, or takes `OUT_OF_BOUNDS`. -/
theorem storeForm_cases (n : Nat) (a b : RegIdx) (s : State) :
    ((s.reg a).toNat + n ≤ Config.memSize ∧ storeForm n a b s =
        s.setMem (s.mem.writeBytes (s.reg a).toNat (leBytes n (s.reg b)))) ∨
    (Config.memSize < (s.reg a).toNat + n ∧
        storeForm n a b s = s.raise (.outOfBounds (s.reg a))) := by
  unfold storeForm
  split
  · rename_i v h
    obtain ⟨hb, rfl⟩ := memWrite_eq_some.1 h
    exact .inl ⟨hb, rfl⟩
  · rename_i h
    exact .inr ⟨memWrite_eq_none.1 h, rfl⟩

/-- A division writes the quotient, or takes `DIVIDE_BY_ZERO`. -/
theorem divForm_cases (a b : RegIdx) (s : State) :
    (s.reg b ≠ 0 ∧ divForm a b s = s.setReg a (aluDiv (s.reg a) (s.reg b))) ∨
    (s.reg b = 0 ∧ divForm a b s = s.raise (.divideByZero (s.pc - 4))) := by
  unfold divForm
  split
  · exact .inr ⟨by assumption, rfl⟩
  · exact .inl ⟨by assumption, rfl⟩

/-- A conditional form does nothing, or is the unmarked form. -/
theorem whenFlag_cases (form : State → State) (s : State) :
    (s.flag = true ∧ whenFlag form s = form s) ∨ (s.flag = false ∧ whenFlag form s = s) := by
  unfold whenFlag
  cases s.flag <;> simp

/-! ### The bridge -/

theorem length_argvOffsets (start : Nat) (argv : List (List Byte)) :
    (argvOffsets start argv).length = 4 * (argv.length + 1) := by
  induction argv generalizing start with
  | nil => simp [argvOffsets]
  | cons g gs ih => simp [argvOffsets, ih]; omega

theorem length_argvStrings (argv : List (List Byte)) :
    (argvStrings argv).length = (argv.map fun g => g.length + 1).sum := by
  induction argv with
  | nil => rfl
  | cons g gs ih => simp [argvStrings, ih]; omega

/-- The block `getargv` writes is as long as the size it answers (rule R122). -/
@[simp] theorem length_argvBlock (base : Nat) (argv : List (List Byte)) :
    (argvBlock base argv).length = argvRequired argv := by
  simp [argvBlock, argvRequired, length_argvOffsets, length_argvStrings]

/-- A `read` never writes more bytes than it was asked for (rule R118). -/
theorem length_readData_le (ans : HostAnswer) (count : Word) :
    (readData ans count).length ≤ count.toNat := by
  unfold readData
  split <;> simp only [List.length_take] <;> omega

/-- Everything the bridge can do: fail or exit with the state as it was, answer without a change
(`getargv`, probing), write the argument block, or ask the host once, which for `read` writes the window
its arguments name. -/
theorem bridge_cases (q : SyscallArgs) (s : State) :
    (∃ c, bridge q s = (.fatal c, s) ∧ c.kind ≠ .none) ∨
    (q.n = 7 ∧ bridge q s = (.halt q.a1, s)) ∨
    (∃ v, bridge q s = (.ret v, s)) ∨
    (q.n = 5 ∧ argvRequired s.guestArgv ≤ q.a2.toNat ∧
      q.a1.toNat + argvRequired s.guestArgv ≤ Config.memSize ∧
      bridge q s = (.ret (BitVec.ofNat 32 (argvRequired s.guestArgv)),
        s.setMem (s.mem.writeBytes q.a1.toNat (argvBlock q.a1.toNat s.guestArgv)))) ∨
    (q.n.toNat ≤ 4 ∧ ∃ v c, bridge q s = (.ret v, s.askHost c)) ∨
    (q.n = 1 ∧ q.a2.toNat + q.a3.toNat ≤ Config.memSize ∧ ∃ v,
      bridge q s = (.ret v, (s.askHost (.read q.a1 q.a3)).setMem
        (s.mem.writeBytes q.a2.toNat (readData s.nextAnswer q.a3)))) := by
  unfold bridge
  split
  · rename_i hn
    unfold sysOpen
    split
    · exact .inr (.inr (.inr (.inr (.inl ⟨by omega, _, _, rfl⟩))))
    · exact .inl ⟨_, rfl, by simp [FaultCause.kind]⟩
  · rename_i hn
    unfold sysRead
    split
    · rename_i h
      exact .inr (.inr (.inr (.inr (.inr ⟨BitVec.eq_of_toNat_eq hn, (inBounds_iff _ _).1 h, _, rfl⟩))))
    · exact .inl ⟨_, rfl, by simp [FaultCause.kind]⟩
  · rename_i hn
    unfold sysWrite
    split
    · exact .inr (.inr (.inr (.inr (.inl ⟨by omega, _, _, rfl⟩))))
    · exact .inl ⟨_, rfl, by simp [FaultCause.kind]⟩
  · exact .inr (.inr (.inr (.inr (.inl ⟨by omega, _, _, rfl⟩))))
  · exact .inr (.inr (.inr (.inr (.inl ⟨by omega, _, _, rfl⟩))))
  · rename_i hn
    unfold sysGetargv
    dsimp only
    split
    · exact .inr (.inr (.inl ⟨_, rfl⟩))
    · split
      · rename_i hc h
        exact .inr (.inr (.inr (.inl
          ⟨BitVec.eq_of_toNat_eq hn, by omega, (inBounds_iff _ _).1 h, rfl⟩)))
      · exact .inl ⟨_, rfl, by simp [FaultCause.kind]⟩
  · rename_i hn
    exact .inr (.inl ⟨BitVec.eq_of_toNat_eq hn, rfl⟩)
  · exact .inl ⟨_, rfl, by simp [FaultCause.kind]⟩

/-- Everything a syscall can do, the result register and the status included. -/
theorem syscallForm_cases (d : RegIdx) (q : SyscallArgs) (s : State) :
    (∃ c, syscallForm d q s = s.raise c ∧ c.kind ≠ .none) ∨
    (q.n = 7 ∧ syscallForm d q s = s.halt q.a1) ∨
    (∃ v, syscallForm d q s = s.setReg d v) ∨
    (q.n = 5 ∧ argvRequired s.guestArgv ≤ q.a2.toNat ∧
      q.a1.toNat + argvRequired s.guestArgv ≤ Config.memSize ∧
      syscallForm d q s =
        (s.setMem (s.mem.writeBytes q.a1.toNat (argvBlock q.a1.toNat s.guestArgv))).setReg d
          (BitVec.ofNat 32 (argvRequired s.guestArgv))) ∨
    (q.n.toNat ≤ 4 ∧ ∃ v c, syscallForm d q s = (s.askHost c).setReg d v) ∨
    (q.n = 1 ∧ q.a2.toNat + q.a3.toNat ≤ Config.memSize ∧ ∃ v,
      syscallForm d q s = ((s.askHost (.read q.a1 q.a3)).setMem
        (s.mem.writeBytes q.a2.toNat (readData s.nextAnswer q.a3))).setReg d v) := by
  unfold syscallForm
  rcases bridge_cases q s with ⟨c, h, hc⟩ | ⟨hn, h⟩ | ⟨v, h⟩ | ⟨hn, ha, hb, h⟩ | ⟨hn, v, c, h⟩ |
    ⟨hn, hb, v, h⟩
  · exact .inl ⟨c, by rw [h]; rfl, hc⟩
  · exact .inr (.inl ⟨hn, by rw [h]; rfl⟩)
  · exact .inr (.inr (.inl ⟨v, by rw [h]; rfl⟩))
  · exact .inr (.inr (.inr (.inl ⟨hn, ha, hb, by rw [h]; rfl⟩)))
  · exact .inr (.inr (.inr (.inr (.inl ⟨hn, v, c, by rw [h]; rfl⟩))))
  · exact .inr (.inr (.inr (.inr (.inr ⟨hn, hb, v, by rw [h]; rfl⟩))))

end Sys2Proof.Machine
end

