-- ==== Sys2Proof/Laws/Step.lean ====
section
/-! SUPPORT. Once, everything a step can do before an instruction runs. -/

namespace Sys2Proof.Machine

/-- The base advance of a window that lies in memory does not wrap (rule R19). -/
theorem toNat_pc_add_four {s : State} (h : s.pc.toNat + 4 ≤ Config.memSize) :
    (s.pc + 4).toNat = s.pc.toNat + 4 := by
  have : Config.memSize = 65536 := rfl
  rw [BitVec.toNat_add]
  simp only [BitVec.reduceToNat]
  omega

/-- A window that does not lie in memory (rule R133). -/
theorem step_fetch_out_of_bounds {s : State} (hr : s.runState = .fetch)
    (h : Config.memSize < s.pc.toNat + 4) : step s = .next (s.raise (.outOfBounds s.pc)) := by
  simp [step, hr, fetch, fetchBytes_of_not_fits h, finish]

/-- A window that lies in memory: what is left is `decodeWindow` past the base advance. -/
theorem step_in_bounds {s : State} (hr : s.runState = .fetch)
    (h : s.pc.toNat + 4 ≤ Config.memSize) :
    step s =
      finish (decodeWindow (s.mem.readByte s.pc.toNat) (s.mem.readByte (s.pc.toNat + 1))
        (s.mem.readByte (s.pc.toNat + 2)) (s.mem.readByte (s.pc.toNat + 3)) s.advance) := by
  simp [step, hr, fetch, fetchBytes_of_fits h]

/-- The bytes a dispatch is given are a whole instruction: it runs, or the pair is of no row. -/
theorem dispatchBytes_cases {op1 op2 op3 op4 : Byte} {rest : List Byte}
    (h : hasExtension op1 op2 = true → 4 ≤ rest.length) (s : State) :
    (∃ i, decode (op1 :: op2 :: op3 :: op4 :: rest) = .ok i ∧
      dispatchBytes op1 op2 (op1 :: op2 :: op3 :: op4 :: rest) s = .run i s) ∨
    (hasExtension op1 op2 = false ∧ shortRows.lookup (op1, op2) = none ∧
      dispatchBytes op1 op2 (op1 :: op2 :: op3 :: op4 :: rest) s =
        .done (s.raise (.invalidOpcode op1 (if op2 = condMarker then spaceByte else op2)))) := by
  unfold dispatchBytes
  cases hd : decode (op1 :: op2 :: op3 :: op4 :: rest) with
  | ok i => exact .inl ⟨i, rfl, rfl⟩
  | error e =>
    rcases decode_error_cases hd with ⟨hx, hlen, -⟩ | ⟨hx, hs, -⟩
    · have := h hx; omega
    · exact .inr ⟨hx, hs, rfl⟩

/-- Everything the decoding of a window can end in, from the state past the base advance. -/
theorem decodeWindow_cases (op1 op2 op3 op4 : Byte) (s : State) :
    (op2 = condMarker ∧ s.flag = false ∧ decodeWindow op1 op2 op3 op4 s = .done s) ∨
    (¬ (op2 = condMarker ∧ s.flag = false) ∧
      ((hasExtension op1 op2 = true ∧ Config.memSize < s.pc.toNat + 4 ∧
          decodeWindow op1 op2 op3 op4 s = .done (s.raise (.outOfBounds s.pc))) ∨
       (hasExtension op1 op2 = false ∧ shortRows.lookup (op1, op2) = none ∧
          decodeWindow op1 op2 op3 op4 s =
            .done (s.raise (.invalidOpcode op1 (if op2 = condMarker then spaceByte else op2)))) ∨
       (∃ i rest, decode (op1 :: op2 :: op3 :: op4 :: rest) = .ok i ∧
          (hasExtension op1 op2 = true →
            s.pc.toNat + 4 ≤ Config.memSize ∧ rest = s.mem.readBytes s.pc.toNat 4) ∧
          decodeWindow op1 op2 op3 op4 s = .run i s))) := by
  unfold decodeWindow
  by_cases hskip : op2 = condMarker ∧ s.flag = false
  · exact .inl ⟨hskip.1, hskip.2, if_pos hskip⟩
  refine .inr ⟨hskip, ?_⟩
  rw [if_neg hskip]
  cases hx : hasExtension op1 op2 with
  | true =>
    rw [if_pos rfl]
    by_cases hb : s.pc.toNat + 4 ≤ Config.memSize
    · rw [fetchBytes_of_fits hb]
      rcases dispatchBytes_cases (op3 := op3) (op4 := op4) (rest := s.mem.readBytes s.pc.toNat 4)
        (fun _ => by simp) s with ⟨i, hd, hr⟩ | ⟨hx', -⟩
      · exact .inr (.inr ⟨i, _, hd, fun _ => ⟨hb, rfl⟩, hr⟩)
      · rw [hx] at hx'; cases hx'
    · rw [fetchBytes_of_not_fits (by omega)]
      exact .inl ⟨rfl, by omega, rfl⟩
  | false =>
    rw [if_neg (by decide)]
    rcases dispatchBytes_cases (op3 := op3) (op4 := op4) (rest := [])
      (fun h => by rw [hx] at h; cases h) s with ⟨i, hd, hr⟩ | ⟨-, hs, hr⟩
    · exact .inr (.inr ⟨i, [], hd, (fun h => by cases h), hr⟩)
    · exact .inr (.inl ⟨rfl, hs, hr⟩)

/-- Everything a step that answers a next state has done: a fetch out of bounds, a skipped window,
extension bytes out of bounds, an invalid opcode, or an instruction decoded from the bytes at `pc` and
run. -/
theorem step_cases {s t : State} (h : step s = .next t) :
    s.runState = .fetch ∧
    ((Config.memSize < s.pc.toNat + 4 ∧ t = s.raise (.outOfBounds s.pc)) ∨
     (s.pc.toNat + 4 ≤ Config.memSize ∧
      ∃ op1 op2 op3 op4, op1 = s.mem.readByte s.pc.toNat ∧ op2 = s.mem.readByte (s.pc.toNat + 1) ∧
        op3 = s.mem.readByte (s.pc.toNat + 2) ∧ op4 = s.mem.readByte (s.pc.toNat + 3) ∧
       ((op2 = condMarker ∧ s.flag = false ∧ t = s.advance) ∨
        (¬ (op2 = condMarker ∧ s.flag = false) ∧
          ((hasExtension op1 op2 = true ∧ Config.memSize < s.pc.toNat + 8 ∧
              t = s.advance.raise (.outOfBounds (s.pc + 4))) ∨
           (hasExtension op1 op2 = false ∧ shortRows.lookup (op1, op2) = none ∧
              ∃ b, t = s.advance.raise (.invalidOpcode op1 b)) ∨
           (∃ i rest, decode (op1 :: op2 :: op3 :: op4 :: rest) = .ok i ∧
              (hasExtension op1 op2 = true → s.pc.toNat + 8 ≤ Config.memSize ∧
                rest = s.mem.readBytes (s.pc.toNat + 4) 4) ∧
              exec i s.advance = .next t)))))) := by
  cases hr : s.runState with
  | halted => simp [step, hr] at h
  | fetch =>
    refine ⟨rfl, ?_⟩
    by_cases hb : s.pc.toNat + 4 ≤ Config.memSize
    · refine .inr ⟨hb, _, _, _, _, rfl, rfl, rfl, rfl, ?_⟩
      rw [step_in_bounds hr hb] at h
      have hp : s.advance.pc.toNat = s.pc.toNat + 4 := by rw [pc_advance, toNat_pc_add_four hb]
      rcases decodeWindow_cases (s.mem.readByte s.pc.toNat) (s.mem.readByte (s.pc.toNat + 1))
        (s.mem.readByte (s.pc.toNat + 2)) (s.mem.readByte (s.pc.toNat + 3)) s.advance with
        ⟨h2, hf, hd⟩ | ⟨hskip, ⟨hx, hb8, hd⟩ | ⟨hx, hs, hd⟩ | ⟨i, rest, hi, hrest, hd⟩⟩ <;>
        rw [hd] at h
      · exact .inl ⟨h2, hf, by cases h; rfl⟩
      · exact .inr ⟨hskip, .inl ⟨hx, by omega, by cases h; rw [pc_advance]⟩⟩
      · exact .inr ⟨hskip, .inr (.inl ⟨hx, hs, _, by cases h; rfl⟩)⟩
      · refine .inr ⟨hskip, .inr (.inr ⟨i, rest, hi, fun hx => ?_, h⟩)⟩
        obtain ⟨hb8, rfl⟩ := hrest hx
        exact ⟨by omega, by rw [hp]; rfl⟩
    · rw [step_fetch_out_of_bounds hr (by omega)] at h
      exact .inl ⟨by omega, by cases h; rfl⟩

end Sys2Proof.Machine
end

