-- ==== Sys2Proof/Laws/Effect.lean ====
section
/-! SUPPORT. Once, what a whole step can do, in terms of the window at `pc`: every rule about the whole
machine is read off `step_effect`. -/

namespace Sys2Proof.Machine

/-- The register that byte `k` of the window names (rule R49). -/
def State.windowReg (s : State) (k : Nat) : RegIdx := regName (s.windowByte k)

/-- The window is skipped (rule R54). -/
def State.Skips (s : State) : Prop := s.windowByte 1 = 0x3F ∧ s.flag = false

/-- The window lies in memory. -/
def State.Fits (s : State) : Prop := s.pc.toNat + 4 ≤ Config.memSize

/-- What one step from `FETCH` can end in. -/
inductive StepEffect (s : State) : State → Prop
  | fetchFault (h : Config.memSize < s.pc.toNat + 4) : StepEffect s (s.raise (.outOfBounds s.pc))
  | skip (hf : s.Fits) (h : s.Skips) : StepEffect s s.advance
  | fault (hf : s.Fits) (hs : ¬ s.Skips)
      (hj : ¬ (s.windowByte 0 = 0x4A ∧ (s.windowByte 1 = 0x20 ∨ s.windowByte 1 = 0x3F)))
      (hl : (s.windowByte 0, s.windowByte 1) ∈ longPairs → Config.memSize < s.pc.toNat + 8)
      (c : FaultCause) (hc : c.kind ≠ .none) : StepEffect s (s.advance.raise c)
  | write (hf : s.Fits) (hs : ¬ s.Skips)
      (hp : s.windowByte 1 ≠ 0x3D ∧ s.windowByte 0 ≠ 0x3F ∧ s.windowByte 0 ≠ 0x4A)
      (hl : (s.windowByte 0, s.windowByte 1) ∉ longPairs) (v : Word) :
      StepEffect s (s.advance.setReg (s.windowReg 2) v)
  | literal (hf : s.pc.toNat + 8 ≤ Config.memSize) (h0 : s.windowByte 0 = 0x3D)
      (h1 : s.windowByte 1 = 0x23 ∨ s.windowByte 1 = 0x24) (v : Word) :
      StepEffect s (s.advance.advance.setReg (s.windowReg 2) v)
  | badLiteral (hf : s.pc.toNat + 8 ≤ Config.memSize) (h0 : s.windowByte 0 = 0x3D)
      (h1 : s.windowByte 1 = 0x23) :
      StepEffect s (s.advance.advance.drawAny.setReg (s.windowReg 2) s.any32)
  | compare (hf : s.Fits) (h0 : s.windowByte 0 = 0x3F)
      (h1 : s.windowByte 1 ∈ [(0x3D : Byte), 0x3E, 0x3C, 0x21]) (b : Bool) :
      StepEffect s (s.advance.setFlag b)
  | storeByte (hf : s.Fits) (h : s.HasPair 0x5B 0x3D)
      (hb : (s.reg (s.windowReg 2)).toNat + 1 ≤ Config.memSize) :
      StepEffect s (s.advance.setMem
        (s.mem.writeBytes (s.reg (s.windowReg 2)).toNat (leBytes 1 (s.reg (s.windowReg 3)))))
  | storeWord (hf : s.Fits) (h : s.HasPair 0x28 0x3D)
      (hb : (s.reg (s.windowReg 2)).toNat + 4 ≤ Config.memSize) :
      StepEffect s (s.advance.setMem
        (s.mem.writeBytes (s.reg (s.windowReg 2)).toNat (leBytes 4 (s.reg (s.windowReg 3)))))
  | jump (hf : s.Fits) (hs : ¬ s.Skips) (h0 : s.windowByte 0 = 0x4A)
      (h1 : s.windowByte 1 = 0x20 ∨ s.windowByte 1 = 0x3F) :
      StepEffect s (s.advance.setPc (s.reg (s.windowReg 2)))
  | syscall (hf : s.Fits) (hs : ¬ s.Skips) (h0 : s.windowByte 0 = 0x53)
      (h1 : s.windowByte 1 = 0x20 ∨ s.windowByte 1 = 0x3F) :
      StepEffect s (syscallForm (s.windowReg 2)
        ⟨s.reg (s.windowReg 2), s.reg (s.windowReg 3), 0, 0, 0, 0⟩ s.advance)
  | syscallExt (hf : s.pc.toNat + 8 ≤ Config.memSize) (h : s.HasPair 0x53 0x2B) :
      StepEffect s (syscallForm (s.windowReg 2)
        ⟨s.reg (s.windowReg 2), s.reg (s.windowReg 3), s.reg (s.windowReg 4), s.reg (s.windowReg 5),
          s.reg (s.windowReg 6), s.reg (s.windowReg 7)⟩ s.advance.advance)

theorem windowReg_nameable (s : State) (k : Nat) : (s.windowReg k).nameable = true :=
  regName_nameable _

theorem windowReg_ne_pc (s : State) (k : Nat) : s.windowReg k ≠ pcIndex :=
  nameable_ne_pc (windowReg_nameable s k)

/-- The registers a window names are not touched by the base advance. -/
@[simp] theorem reg_advance_windowReg (s : State) (k : Nat) :
    s.advance.reg (s.windowReg k) = s.reg (s.windowReg k) :=
  reg_advance_ne s (windowReg_ne_pc s k)

@[simp] theorem reg_advance_advance_windowReg (s : State) (k : Nat) :
    s.advance.advance.reg (s.windowReg k) = s.reg (s.windowReg k) := by
  rw [reg_advance_ne _ (windowReg_ne_pc s k), reg_advance_windowReg]

/-- What a load leaves: a written register, or a fault. -/
theorem loadForm_effect (n : Nat) (a b : RegIdx) (s : State) :
    (∃ v, loadForm n a b s = s.setReg a v) ∨
      ∃ c : FaultCause, c.kind ≠ .none ∧ loadForm n a b s = s.raise c := by
  rcases loadForm_cases n a b s with ⟨-, h⟩ | ⟨-, h⟩
  · exact .inl ⟨_, h⟩
  · exact .inr ⟨_, by simp [FaultCause.kind], h⟩

/-- What a division leaves: a written register, or a fault. -/
theorem divForm_effect (a b : RegIdx) (s : State) :
    (∃ v, divForm a b s = s.setReg a v) ∨
      ∃ c : FaultCause, c.kind ≠ .none ∧ divForm a b s = s.raise c := by
  rcases divForm_cases a b s with ⟨-, h⟩ | ⟨-, h⟩
  · exact .inl ⟨_, h⟩
  · exact .inr ⟨_, by simp [FaultCause.kind], h⟩

/-- A conditional form that is not skipped is its unmarked form (rule R95). -/
theorem whenFlag_of_not_skips {s : State} (hs : ¬ s.Skips) (h1 : s.windowByte 1 = 0x3F)
    (form : State → State) : whenFlag form s.advance = form s.advance := by
  rcases whenFlag_cases form s.advance with ⟨-, h⟩ | ⟨hf, -⟩
  · exact h
  · exact absurd ⟨h1, hf⟩ hs

/-- A form that writes one register, or faults. -/
theorem effect_of_write_or_fault {s t : State} {op1 op2 : Byte} (hf : s.Fits) (hs : ¬ s.Skips)
    (h0 : s.windowByte 0 = op1) (h1 : s.windowByte 1 = op2)
    (hp : op2 ≠ 0x3D ∧ op1 ≠ 0x3F ∧ op1 ≠ 0x4A) (hl : (op1, op2) ∉ longPairs)
    (h : (∃ v, t = s.advance.setReg (s.windowReg 2) v) ∨
      ∃ c : FaultCause, c.kind ≠ .none ∧ t = s.advance.raise c) : StepEffect s t := by
  subst h0 h1
  rcases h with ⟨v, rfl⟩ | ⟨c, hc, rfl⟩
  · exact .write hf hs hp hl v
  · exact .fault hf hs (fun h => hp.2.2 h.1) (fun h => absurd h hl) c hc

/-- A form that only faults. -/
theorem effect_of_fault {s : State} {op1 op2 : Byte} (hf : s.Fits) (hs : ¬ s.Skips)
    (h0 : s.windowByte 0 = op1) (h1 : s.windowByte 1 = op2) (hp : op1 ≠ 0x4A)
    (hl : (op1, op2) ∉ longPairs) (c : FaultCause) (hc : c.kind ≠ .none) :
    StepEffect s (s.advance.raise c) := by
  subst h0 h1
  exact .fault hf hs (fun h => hp h.1) (fun h => absurd h hl) c hc

/-- The stores. -/
theorem effect_of_storeForm {s : State} (n : Nat) (op1 : Byte)
    (ho : (n = 1 ∧ op1 = 0x5B) ∨ (n = 4 ∧ op1 = 0x28)) (hf : s.Fits) (hs : ¬ s.Skips)
    (h0 : s.windowByte 0 = op1) (h1 : s.windowByte 1 = 0x3D) :
    StepEffect s (storeForm n (s.windowReg 2) (s.windowReg 3) s.advance) := by
  rcases storeForm_cases n (s.windowReg 2) (s.windowReg 3) s.advance with ⟨hb, e⟩ | ⟨-, e⟩ <;> rw [e]
  · rw [reg_advance_windowReg] at hb
    rw [reg_advance_windowReg, reg_advance_windowReg]
    rcases ho with ⟨rfl, rfl⟩ | ⟨rfl, rfl⟩
    · exact .storeByte hf ⟨h0, h1⟩ hb
    · exact .storeWord hf ⟨h0, h1⟩ hb
  · rcases ho with ⟨-, rfl⟩ | ⟨-, rfl⟩ <;>
      exact effect_of_fault hf hs h0 h1 (by decide) (by decide) _ (by simp [FaultCause.kind])

/-- The jumps. -/
theorem effect_of_jmp {s : State} (hf : s.Fits) (hs : ¬ s.Skips) (h0 : s.windowByte 0 = 0x4A)
    (h1 : s.windowByte 1 = 0x20 ∨ s.windowByte 1 = 0x3F) :
    StepEffect s (jumpForm (s.windowReg 2) s.advance) := by
  rw [jumpForm, reg_advance_windowReg]
  exact .jump hf hs h0 h1

/-- `SYS` and `SYS?`. -/
theorem effect_of_sys {s : State} (hf : s.Fits) (hs : ¬ s.Skips) (h0 : s.windowByte 0 = 0x53)
    (h1 : s.windowByte 1 = 0x20 ∨ s.windowByte 1 = 0x3F) :
    StepEffect s (syscallForm (s.windowReg 2) (sysArgs (s.windowReg 2) (s.windowReg 3) s.advance)
      s.advance) := by
  rw [sysArgs, reg_advance_windowReg, reg_advance_windowReg]
  exact .syscall hf hs h0 h1

/-- The effect of a four-byte instruction (rules R52, R62). -/
theorem exec_short_effect {s t : State} {build : RegIdx → RegIdx → Instr} (hf : s.Fits)
    (hs : ¬ s.Skips) (hm : ((s.windowByte 0, s.windowByte 1), build) ∈ shortRows)
    (h : exec (build (s.windowReg 2) (s.windowReg 3)) s.advance = .next t) : StepEffect s t := by
  simp only [shortRows, plainRows, condRows, List.cons_append, List.nil_append, List.mem_cons,
    Prod.mk.injEq, List.not_mem_nil, or_false] at hm
  rcases hm with h'|h'|h'|h'|h'|h'|h'|h'|h'|h'|h'|h'|h'|h'|h'|h'|h'|h'|h'|h'|h'|h'|h'|h'|h'|h'|h'|h'|h'|h'|h'|h'|h'|h' <;>
    obtain ⟨⟨h0, h1⟩, rfl⟩ := h'
  all_goals
    replace h := Host.Outcome.next.inj h
    first
    | rw [whenFlag_of_not_skips hs h1] at h
    | skip
    subst h
  all_goals first
    | exact effect_of_write_or_fault hf hs h0 h1 (by decide) (by decide) (.inl ⟨_, rfl⟩)
    | exact effect_of_write_or_fault hf hs h0 h1 (by decide) (by decide) (loadForm_effect _ _ _ _)
    | exact effect_of_write_or_fault hf hs h0 h1 (by decide) (by decide) (divForm_effect _ _ _)
    | exact effect_of_storeForm _ _ (by decide) hf hs h0 h1
    | exact .compare hf h0 (by rw [h1]; decide) _
    | exact effect_of_fault hf hs h0 h1 (by decide) (by decide) _ (by decide)
    | exact effect_of_sys hf hs h0 (by simp [h1])
    | exact effect_of_jmp hf hs h0 (by simp [h1])

/-- The effect of an eight-byte instruction (rules R51, R59 to R61). -/
theorem exec_long_effect {s t : State} {build : RegIdx → RegIdx → Byte → Byte → Byte → Byte → Instr}
    (hf : s.pc.toNat + 8 ≤ Config.memSize)
    (hm : ((s.windowByte 0, s.windowByte 1), build) ∈ longRows)
    (h : exec (build (s.windowReg 2) (s.windowReg 3) (s.windowByte 4) (s.windowByte 5) (s.windowByte 6)
      (s.windowByte 7)) s.advance = .next t) : StepEffect s t := by
  simp only [longRows, List.mem_cons, Prod.mk.injEq, List.not_mem_nil, or_false] at hm
  rcases hm with h' | h' | h' <;> obtain ⟨⟨h0, h1⟩, rfl⟩ := h'
  · simp only [exec, execLdh] at h
    split at h <;> obtain rfl := Host.Outcome.next.inj h
    · exact .literal hf h0 (.inl h1) _
    · exact .badLiteral hf h0 h1
  · obtain rfl := Host.Outcome.next.inj h
    exact .literal hf h0 (.inr h1) _
  · obtain rfl := Host.Outcome.next.inj h
    have e : ∀ k, s.advance.advance.reg (regName (s.windowByte k)) = s.reg (s.windowReg k) :=
      reg_advance_advance_windowReg s
    rw [e, e, e, e, reg_advance_advance_windowReg, reg_advance_advance_windowReg]
    exact .syscallExt hf ⟨h0, h1⟩

/-- Everything a step that answers a next state can have done. -/
theorem step_effect {s t : State} (h : step s = .next t) : s.runState = .fetch ∧ StepEffect s t := by
  obtain ⟨hr, ⟨hb, rfl⟩ | ⟨hf, op1, op2, op3, op4, rfl, rfl, rfl, rfl, hc⟩⟩ := step_cases h
  · exact ⟨hr, .fetchFault hb⟩
  refine ⟨hr, ?_⟩
  rcases hc with ⟨h1, hflag, rfl⟩ | ⟨hs, ⟨hx, hb, rfl⟩ | ⟨hx, hl, b, rfl⟩ | ⟨i, rest, hi, hrest, he⟩⟩
  · exact .skip hf ⟨h1, hflag⟩
  · refine .fault hf hs (fun hj => ?_) (fun _ => hb) _ (by simp [FaultCause.kind])
    revert hx
    change hasExtension (s.windowByte 0) (s.windowByte 1) = true → False
    rcases hj with ⟨e0, e1 | e1⟩ <;> rw [e0, e1] <;> decide
  · refine .fault hf hs (fun hj => ?_) (fun hm => ?_) _ (by simp [FaultCause.kind])
    · revert hl
      change shortRows.lookup (s.windowByte 0, s.windowByte 1) = none → False
      rcases hj with ⟨e0, e1 | e1⟩ <;> rw [e0, e1] <;> intro hn <;>
        exact absurd (congrArg Option.isSome hn) (by decide)
    · revert hx
      change hasExtension (s.windowByte 0) (s.windowByte 1) = false → _
      simp only [longPairs, List.mem_cons, Prod.mk.injEq, List.not_mem_nil, or_false] at hm
      rcases hm with ⟨e0, e1⟩ | ⟨e0, e1⟩ | ⟨e0, e1⟩ <;> rw [e0, e1] <;> intro hx <;>
        exact absurd hx (by decide)
  · rcases decode_ok_cases hi with ⟨build, hm, -, rfl⟩ | ⟨build, e0, e1, e2, e3, tail, hm, hr, rfl⟩
    · exact exec_short_effect hf hs hm he
    · have hx : hasExtension (s.windowByte 0) (s.windowByte 1) = true := by
        simp only [longRows, List.mem_cons, Prod.mk.injEq, List.not_mem_nil, or_false] at hm
        rcases hm with h' | h' | h' <;> obtain ⟨⟨h0, h1⟩, rfl⟩ := h' <;>
          (simp only [State.windowByte, Nat.add_zero]; rw [h0, h1]; decide)
      obtain ⟨h8, hb⟩ := hrest hx
      rw [hr, Memory.readBytes_four] at hb
      simp only [List.cons.injEq] at hb
      obtain ⟨rfl, rfl, rfl, rfl, -⟩ := hb
      exact exec_long_effect h8 hm he

end Sys2Proof.Machine
end

