-- ==== Sys2Proof/Laws/PerInstr.lean ====
section
/-! SUPPORT. A statement for every instruction, one lemma per constructor: the shape of its encoding. -/

namespace Sys2Proof.Laws.EncodeShape

open Sys2Proof.Machine

/-- The encoding is as long as the instruction (rules R50, R51), begins with a pair of the opcode map
(rules R62, R64), and the pair alone says whether it is 4 or 8 bytes long. -/
def Statement (i : Instr) : Prop :=
  (encode i).length = i.byteLength ∧
  ∃ op1 op2 op3 op4 rest, encode i = op1 :: op2 :: op3 :: op4 :: rest ∧
    (op1, op2) ∈ basePairs ++ otherPairs ∧
    i.byteLength = if (op1, op2) ∈ longPairs then 8 else 4

theorem ldh (a : RegIdx) (h0 h1 h2 h3 : Byte) : Statement (.ldh a h0 h1 h2 h3) :=
  ⟨rfl, _, _, _, _, _, rfl, by decide, rfl⟩

theorem mov (a b : RegIdx) : Statement (.mov a b) :=
  ⟨rfl, _, _, _, _, _, rfl, by decide, rfl⟩

theorem ldi (a : RegIdx) (v : Word) : Statement (.ldi a v) :=
  ⟨rfl, _, _, _, _, _, rfl, by decide, rfl⟩

theorem ldb (a b : RegIdx) : Statement (.ldb a b) :=
  ⟨rfl, _, _, _, _, _, rfl, by decide, rfl⟩

theorem ldw (a b : RegIdx) : Statement (.ldw a b) :=
  ⟨rfl, _, _, _, _, _, rfl, by decide, rfl⟩

theorem stb (a b : RegIdx) : Statement (.stb a b) :=
  ⟨rfl, _, _, _, _, _, rfl, by decide, rfl⟩

theorem stw (a b : RegIdx) : Statement (.stw a b) :=
  ⟨rfl, _, _, _, _, _, rfl, by decide, rfl⟩

theorem add (a b : RegIdx) : Statement (.add a b) :=
  ⟨rfl, _, _, _, _, _, rfl, by decide, rfl⟩

theorem sub (a b : RegIdx) : Statement (.sub a b) :=
  ⟨rfl, _, _, _, _, _, rfl, by decide, rfl⟩

theorem mul (a b : RegIdx) : Statement (.mul a b) :=
  ⟨rfl, _, _, _, _, _, rfl, by decide, rfl⟩

theorem div (a b : RegIdx) : Statement (.div a b) :=
  ⟨rfl, _, _, _, _, _, rfl, by decide, rfl⟩

theorem and (a b : RegIdx) : Statement (.and a b) :=
  ⟨rfl, _, _, _, _, _, rfl, by decide, rfl⟩

theorem or (a b : RegIdx) : Statement (.or a b) :=
  ⟨rfl, _, _, _, _, _, rfl, by decide, rfl⟩

theorem xor (a b : RegIdx) : Statement (.xor a b) :=
  ⟨rfl, _, _, _, _, _, rfl, by decide, rfl⟩

theorem shr (a b : RegIdx) : Statement (.shr a b) :=
  ⟨rfl, _, _, _, _, _, rfl, by decide, rfl⟩

theorem shl (a b : RegIdx) : Statement (.shl a b) :=
  ⟨rfl, _, _, _, _, _, rfl, by decide, rfl⟩

theorem ceq (a b : RegIdx) : Statement (.ceq a b) :=
  ⟨rfl, _, _, _, _, _, rfl, by decide, rfl⟩

theorem cgt (a b : RegIdx) : Statement (.cgt a b) :=
  ⟨rfl, _, _, _, _, _, rfl, by decide, rfl⟩

theorem clt (a b : RegIdx) : Statement (.clt a b) :=
  ⟨rfl, _, _, _, _, _, rfl, by decide, rfl⟩

theorem cne (a b : RegIdx) : Statement (.cne a b) :=
  ⟨rfl, _, _, _, _, _, rfl, by decide, rfl⟩

theorem sys (a b : RegIdx) : Statement (.sys a b) :=
  ⟨rfl, _, _, _, _, _, rfl, by decide, rfl⟩

theorem sysx (a b r2 r3 r4 r5 : RegIdx) : Statement (.sysx a b r2 r3 r4 r5) :=
  ⟨rfl, _, _, _, _, _, rfl, by decide, rfl⟩

theorem jmp (a : RegIdx) : Statement (.jmp a) :=
  ⟨rfl, _, _, _, _, _, rfl, by decide, rfl⟩

theorem movQ (a b : RegIdx) : Statement (.movQ a b) :=
  ⟨rfl, _, _, _, _, _, rfl, by decide, rfl⟩

theorem addQ (a b : RegIdx) : Statement (.addQ a b) :=
  ⟨rfl, _, _, _, _, _, rfl, by decide, rfl⟩

theorem subQ (a b : RegIdx) : Statement (.subQ a b) :=
  ⟨rfl, _, _, _, _, _, rfl, by decide, rfl⟩

theorem mulQ (a b : RegIdx) : Statement (.mulQ a b) :=
  ⟨rfl, _, _, _, _, _, rfl, by decide, rfl⟩

theorem divQ (a b : RegIdx) : Statement (.divQ a b) :=
  ⟨rfl, _, _, _, _, _, rfl, by decide, rfl⟩

theorem andQ (a b : RegIdx) : Statement (.andQ a b) :=
  ⟨rfl, _, _, _, _, _, rfl, by decide, rfl⟩

theorem orQ (a b : RegIdx) : Statement (.orQ a b) :=
  ⟨rfl, _, _, _, _, _, rfl, by decide, rfl⟩

theorem xorQ (a b : RegIdx) : Statement (.xorQ a b) :=
  ⟨rfl, _, _, _, _, _, rfl, by decide, rfl⟩

theorem shrQ (a b : RegIdx) : Statement (.shrQ a b) :=
  ⟨rfl, _, _, _, _, _, rfl, by decide, rfl⟩

theorem shlQ (a b : RegIdx) : Statement (.shlQ a b) :=
  ⟨rfl, _, _, _, _, _, rfl, by decide, rfl⟩

theorem sysQ (a b : RegIdx) : Statement (.sysQ a b) :=
  ⟨rfl, _, _, _, _, _, rfl, by decide, rfl⟩

theorem jmpQ (a : RegIdx) : Statement (.jmpQ a) :=
  ⟨rfl, _, _, _, _, _, rfl, by decide, rfl⟩

theorem rsvLd16 : Statement .rsvLd16 :=
  ⟨rfl, _, _, _, _, _, rfl, by decide, rfl⟩

theorem rsvSt16 : Statement .rsvSt16 :=
  ⟨rfl, _, _, _, _, _, rfl, by decide, rfl⟩

end Sys2Proof.Laws.EncodeShape
end

