-- ==== Sys2Proof/Tests/Slice0.lean ====
section
/-! SUPPORT. Tests. The bytes of the decoding tests are written out from the tables of rules R57 and R62;
the step tests are vectors of `spec/95_test_vectors.md`, named in each comment; the witnesses show concrete
states that meet the hypotheses of the obligations, at boundary values where a hypothesis has a range. -/

namespace Sys2Proof.Tests

open Sys2Proof Sys2Proof.Machine

/-! ### Helpers -/

/-- The reset state with bytes at `pc`, some registers and the flag set. -/
def start (pc : Word) (bytes : List Byte) (regs : List (RegIdx × Word)) (flag : Bool := false) : State :=
  let s : State := { State.reset with mem := Memory.writeBytes [] pc.toNat bytes, flag := flag }
  (regs.foldl (fun (t : State) r => t.setReg r.1 r.2) s).setPc pc

/-- The state with one more run of bytes in memory. -/
def withBytes (s : State) (a : Nat) (bytes : List Byte) : State := s.setMem (s.mem.writeBytes a bytes)

/-- The step answers a next state with the property. -/
def stepGives (s : State) (p : State → Bool) : Bool :=
  match step s with
  | .next t => p t
  | _ => false

/-- `exec` answers a next state with the property. -/
def execGives (i : Instr) (s : State) (p : State → Bool) : Bool :=
  match exec i s with
  | .next t => p t
  | _ => false

/-- `HALTED(kind, code)` of the spec's vectors. -/
def haltedWith (k : FaultKind) (code : Word) (t : State) : Bool :=
  t.runState == .halted && t.faultKind == k && t.haltCode == code

/-! ### Well-formedness (rule R14) -/

theorem test_wf_mov_from_62 : Instr.wellFormed (.mov 0 62) = false := by decide
theorem test_wf_ldh_to_pc : Instr.wellFormed (.ldh 63 0x30 0x30 0x30 0x30) = false := by decide
theorem test_wf_add_to_62 : Instr.wellFormed (.add 62 0) = false := by decide
theorem test_wf_jmpQ_pc : Instr.wellFormed (.jmpQ 63) = false := by decide
theorem test_wf_sysx_last_operand : Instr.wellFormed (.sysx 0 0 0 0 0 62) = false := by decide
theorem test_wf_ldi_62 : Instr.wellFormed (.ldi 62 0) = false := by decide
theorem test_wf_stw_61 : Instr.wellFormed (.stw 61 61) = true := by decide

/-! ### Decoding: one written-out word per constructor -/

theorem test_decode_ldh :
    decode [0x3D, 0x23, 0x41, 0x20, 0x30, 0x30, 0x46, 0x46] = .ok (.ldh 10 0x30 0x30 0x46 0x46) := by decide
theorem test_decode_mov : decode [0x3D, 0x20, 0x42, 0x41] = .ok (.mov 11 10) := by decide
theorem test_decode_ldi :
    decode [0x3D, 0x24, 0x61, 0x20, 0x78, 0x56, 0x34, 0x12] = .ok (.ldi 36 0x12345678) := by decide
theorem test_decode_ldb : decode [0x3D, 0x5B, 0x31, 0x30] = .ok (.ldb 1 0) := by decide
theorem test_decode_ldw : decode [0x3D, 0x28, 0x7A, 0x39] = .ok (.ldw 61 9) := by decide
theorem test_decode_stb : decode [0x5B, 0x3D, 0x30, 0x31] = .ok (.stb 0 1) := by decide
theorem test_decode_stw : decode [0x28, 0x3D, 0x5A, 0x61] = .ok (.stw 35 36) := by decide
theorem test_decode_add : decode [0x2B, 0x20, 0x30, 0x31] = .ok (.add 0 1) := by decide
theorem test_decode_sub : decode [0x2D, 0x20, 0x30, 0x31] = .ok (.sub 0 1) := by decide
theorem test_decode_mul : decode [0x2A, 0x20, 0x30, 0x31] = .ok (.mul 0 1) := by decide
theorem test_decode_div : decode [0x2F, 0x20, 0x30, 0x31] = .ok (.div 0 1) := by decide
theorem test_decode_and : decode [0x26, 0x20, 0x30, 0x31] = .ok (.and 0 1) := by decide
theorem test_decode_or : decode [0x7C, 0x20, 0x30, 0x31] = .ok (.or 0 1) := by decide
theorem test_decode_xor : decode [0x5E, 0x20, 0x30, 0x31] = .ok (.xor 0 1) := by decide
theorem test_decode_shr : decode [0x3E, 0x20, 0x30, 0x31] = .ok (.shr 0 1) := by decide
theorem test_decode_shl : decode [0x3C, 0x20, 0x30, 0x31] = .ok (.shl 0 1) := by decide
theorem test_decode_ceq : decode [0x3F, 0x3D, 0x30, 0x31] = .ok (.ceq 0 1) := by decide
theorem test_decode_cgt : decode [0x3F, 0x3E, 0x30, 0x31] = .ok (.cgt 0 1) := by decide
theorem test_decode_clt : decode [0x3F, 0x3C, 0x30, 0x31] = .ok (.clt 0 1) := by decide
theorem test_decode_cne : decode [0x3F, 0x21, 0x30, 0x31] = .ok (.cne 0 1) := by decide
theorem test_decode_sys : decode [0x53, 0x20, 0x30, 0x31] = .ok (.sys 0 1) := by decide
theorem test_decode_sysx :
    decode [0x53, 0x2B, 0x30, 0x31, 0x61, 0x62, 0x63, 0x64] = .ok (.sysx 0 1 36 37 38 39) := by decide
theorem test_decode_jmp : decode [0x4A, 0x20, 0x34, 0x20] = .ok (.jmp 4) := by decide
theorem test_decode_movQ : decode [0x3D, 0x3F, 0x31, 0x30] = .ok (.movQ 1 0) := by decide
theorem test_decode_addQ : decode [0x2B, 0x3F, 0x30, 0x31] = .ok (.addQ 0 1) := by decide
theorem test_decode_subQ : decode [0x2D, 0x3F, 0x30, 0x31] = .ok (.subQ 0 1) := by decide
theorem test_decode_mulQ : decode [0x2A, 0x3F, 0x30, 0x31] = .ok (.mulQ 0 1) := by decide
theorem test_decode_divQ : decode [0x2F, 0x3F, 0x30, 0x31] = .ok (.divQ 0 1) := by decide
theorem test_decode_andQ : decode [0x26, 0x3F, 0x30, 0x31] = .ok (.andQ 0 1) := by decide
theorem test_decode_orQ : decode [0x7C, 0x3F, 0x30, 0x31] = .ok (.orQ 0 1) := by decide
theorem test_decode_xorQ : decode [0x5E, 0x3F, 0x30, 0x31] = .ok (.xorQ 0 1) := by decide
theorem test_decode_shrQ : decode [0x3E, 0x3F, 0x30, 0x31] = .ok (.shrQ 0 1) := by decide
theorem test_decode_shlQ : decode [0x3C, 0x3F, 0x30, 0x31] = .ok (.shlQ 0 1) := by decide
theorem test_decode_sysQ : decode [0x53, 0x3F, 0x30, 0x31] = .ok (.sysQ 0 1) := by decide
theorem test_decode_jmpQ : decode [0x4A, 0x3F, 0x34, 0x20] = .ok (.jmpQ 4) := by decide
theorem test_decode_rsvLd16 : decode [0x3D, 0x7B, 0x31, 0x30] = .ok .rsvLd16 := by decide
theorem test_decode_rsvSt16 : decode [0x7B, 0x3D, 0x30, 0x31] = .ok .rsvSt16 := by decide

/-- The opcode table's numbering: the window is bits 31 to 0, its first byte most significant, and the
extension bytes are bits 63 to 32 (rule R56). -/
theorem test_table_numbering :
    decodeTableWord 32 0x3D204241 = some (.mov 11 10) ∧
    decodeTableWord 64 0x785634123D246120 = some (.ldi 36 0x12345678) ∧
    decodeTableWord 32 0x3DA03031 = none := by decide
/-- Bytes outside the three ranges name register 0 (S-1, M-11). -/
theorem test_decode_name_fallback :
    decode [0x3D, 0x23, 0x7E, 0x20, 0x30, 0x30, 0x31, 0x30] = .ok (.ldh 0 0x30 0x30 0x31 0x30) := by decide
/-- F-3, F-7, F-8, F-9, F-10. -/
theorem test_decode_rejects :
    decode [0x21, 0x21, 0x21, 0x21] = .error (.invalidOpcode 0x21 0x21) ∧
    decode [0x3D, 0x3D, 0x30, 0x31] = .error (.invalidOpcode 0x3D 0x3D) ∧
    decode [0x3D, 0xA0, 0x30, 0x31] = .error (.invalidOpcode 0x3D 0xA0) ∧
    decode [0x4A, 0x23, 0x30, 0x20] = .error (.invalidOpcode 0x4A 0x23) ∧
    decode [0x73, 0x20, 0x30, 0x31] = .error (.invalidOpcode 0x73 0x20) := by decide
/-- Bytes that end inside an instruction. -/
theorem test_decode_incomplete :
    decode [0x3D, 0x20, 0x30] = .error .windowIncomplete ∧
    decode [0x3D, 0x24, 0x30, 0x20, 1, 2, 3] = .error .extensionIncomplete := by decide

/-- What `withFetchWord` places is what the next step runs. -/
theorem test_withFetchWord :
    stepGives ((start 0 [] [(0, 5), (1, 3)]).withFetchWord 32 0x2B203031)
      (fun t => t.reg 0 == 8 && t.pc == 4) = true := by decide

/-! ### One step, by the spec's vectors -/

/-- The argument strings of the spec's vectors: "prog.img" and "-v". -/
def progArgv : List (List Byte) := [[0x70, 0x72, 0x6F, 0x67, 0x2E, 0x69, 0x6D, 0x67], [0x2D, 0x76]]

/-- M-2. -/
theorem test_ldh :
    stepGives (start 0 [0x3D, 0x23, 0x7A, 0x20, 0x46, 0x46, 0x46, 0x46] [])
      (fun t => t.reg 61 == 0xFFFF && t.pc == 8) = true := by decide
/-- M-3: still running, one value drawn. -/
theorem test_ldh_bad_digit :
    stepGives (start 0 [0x3D, 0x23, 0x30, 0x20, 0x30, 0x30, 0x66, 0x66] [(0, 0x1234)])
      (fun t => t.anyDraws == 1 && t.pc == 8 && t.runState == .fetch) = true := by decide
/-- M-5. -/
theorem test_mov :
    stepGives (start 0 [0x3D, 0x20, 0x42, 0x41] [(10, 7)])
      (fun t => t.reg 11 == 7 && t.reg 10 == 7 && t.pc == 4) = true := by decide
/-- M-7. -/
theorem test_ldi :
    stepGives (start 0 [0x3D, 0x24, 0x61, 0x20, 0x78, 0x56, 0x34, 0x12] [])
      (fun t => t.reg 36 == 0x12345678 && t.pc == 8) = true := by decide
/-- M-10. -/
theorem test_ldi_no_room :
    stepGives (start 65529 [0x3D, 0x24, 0x30, 0x20, 0x01, 0x02, 0x03] [])
      (fun t => t.pc == 0xFFFD && t.reg 0 == 0 && haltedWith .outOfBounds 1 t) = true := by decide
/-- L-1. -/
theorem test_ldb :
    stepGives (withBytes (start 0 [0x3D, 0x5B, 0x31, 0x30] [(0, 0x100)]) 0x100 [0xF0])
      (fun t => t.reg 1 == 0xF0 && t.pc == 4) = true := by decide
/-- L-6. -/
theorem test_ldb_out_of_bounds :
    stepGives (start 0 [0x3D, 0x5B, 0x31, 0x30] [(0, 65536)])
      (fun t => t.reg 1 == 0 && t.pc == 4 && haltedWith .outOfBounds 1 t) = true := by decide
/-- L-2, unaligned. -/
theorem test_ldw :
    stepGives (withBytes (start 0 [0x3D, 0x28, 0x31, 0x30] [(0, 0x101)]) 0x101 [0x78, 0x56, 0x34, 0x12])
      (fun t => t.reg 1 == 0x12345678 && t.pc == 4) = true := by decide
/-- L-10. -/
theorem test_ldw_no_wrap :
    stepGives (start 0 [0x3D, 0x28, 0x31, 0x30] [(0, 0xFFFFFFFE)])
      (fun t => haltedWith .outOfBounds 1 t) = true := by decide
/-- L-3. -/
theorem test_stb :
    stepGives (start 0 [0x5B, 0x3D, 0x30, 0x31] [(0, 0x200), (1, 0x1234ABCD)])
      (fun t => t.mem.readBytes 0x200 2 == [0xCD, 0] && t.pc == 4) = true := by decide
/-- L-12. -/
theorem test_stb_same_register :
    stepGives (start 0 [0x5B, 0x3D, 0x30, 0x30] [(0, 0x2AB)])
      (fun t => t.mem.readByte 0x2AB == 0xAB) = true := by decide
/-- L-4. -/
theorem test_stw :
    stepGives (start 0 [0x28, 0x3D, 0x30, 0x31] [(0, 0x200), (1, 0x1234ABCD)])
      (fun t => t.mem.readBytes 0x200 4 == [0xCD, 0xAB, 0x34, 0x12] && t.pc == 4) = true := by decide
/-- L-9. -/
theorem test_stw_writes_nothing_at_the_end :
    stepGives (start 0 [0x28, 0x3D, 0x30, 0x31] [(0, 65533), (1, 0xAABBCCDD)])
      (fun t => t.mem.readBytes 65533 3 == [0, 0, 0] && haltedWith .outOfBounds 1 t) = true := by decide
/-- A-2. -/
theorem test_add :
    stepGives (start 0 [0x2B, 0x20, 0x30, 0x31] [(0, 0xFFFFFFFF), (1, 1)])
      (fun t => t.reg 0 == 0 && t.reg 1 == 1 && t.pc == 4) = true := by decide
/-- A-4. -/
theorem test_sub :
    stepGives (start 0 [0x2D, 0x20, 0x30, 0x31] [(0, 3), (1, 5)])
      (fun t => t.reg 0 == 0xFFFFFFFE && t.reg 1 == 5 && t.pc == 4) = true := by decide
/-- A-6. -/
theorem test_mul :
    stepGives (start 0 [0x2A, 0x20, 0x30, 0x31] [(0, 6), (1, 7)])
      (fun t => t.reg 0 == 42 && t.reg 1 == 7 && t.pc == 4) = true := by decide
/-- A-7. -/
theorem test_mul_wraps :
    stepGives (start 0 [0x2A, 0x20, 0x30, 0x31] [(0, 0x10000), (1, 0x10000)])
      (fun t => t.reg 0 == 0 && t.reg 1 == 0x10000 && t.pc == 4) = true := by decide
/-- A-11. -/
theorem test_div :
    stepGives (start 0 [0x2F, 0x20, 0x30, 0x31] [(0, 0x80000000), (1, 0xFFFFFFFF)])
      (fun t => t.reg 0 == 0 && t.reg 1 == 0xFFFFFFFF && t.pc == 4) = true := by decide
/-- A-16. -/
theorem test_and :
    stepGives (start 0 [0x26, 0x20, 0x30, 0x31] [(0, 0xF0F0), (1, 0xFF00)])
      (fun t => t.reg 0 == 0xF000 && t.reg 1 == 0xFF00 && t.pc == 4) = true := by decide
/-- A-17. -/
theorem test_or :
    stepGives (start 0 [0x7C, 0x20, 0x30, 0x31] [(0, 0xF0F0), (1, 0xFF00)])
      (fun t => t.reg 0 == 0xFFF0 && t.reg 1 == 0xFF00 && t.pc == 4) = true := by decide
/-- A-18. -/
theorem test_xor :
    stepGives (start 0 [0x5E, 0x20, 0x30, 0x31] [(0, 0xF0F0), (1, 0xFF00)])
      (fun t => t.reg 0 == 0x0FF0 && t.reg 1 == 0xFF00 && t.pc == 4) = true := by decide
/-- A-21. -/
theorem test_shr :
    stepGives (start 0 [0x3E, 0x20, 0x30, 0x31] [(0, 0x80000000), (1, 31)])
      (fun t => t.reg 0 == 1 && t.reg 1 == 31 && t.pc == 4) = true := by decide
/-- A-22. -/
theorem test_shr_by_32 :
    stepGives (start 0 [0x3E, 0x20, 0x30, 0x31] [(0, 0x80000000), (1, 32)])
      (fun t => t.reg 0 == 0 && t.reg 1 == 32 && t.pc == 4) = true := by decide
/-- A-26. -/
theorem test_shl :
    stepGives (start 0 [0x3C, 0x20, 0x30, 0x31] [(0, 3), (1, 31)])
      (fun t => t.reg 0 == 0x80000000 && t.reg 1 == 31 && t.pc == 4) = true := by decide
/-- A-28. -/
theorem test_shl_by_33 :
    stepGives (start 0 [0x3C, 0x20, 0x30, 0x31] [(0, 0xFFFFFFFF), (1, 33)])
      (fun t => t.reg 0 == 0 && t.reg 1 == 33 && t.pc == 4) = true := by decide
/-- A-3. -/
theorem test_add_same_register :
    stepGives (start 0 [0x2B, 0x20, 0x30, 0x30] [(0, 0x80000001)])
      (fun t => t.reg 0 == 2) = true := by decide
/-- A-12. -/
theorem test_div_by_zero :
    stepGives (start 0 [0x2F, 0x20, 0x30, 0x31] [(0, 17)])
      (fun t => t.reg 0 == 17 && t.pc == 4 && haltedWith .divideByZero 1 t) = true := by decide
/-- C-1. -/
theorem test_ceq :
    stepGives (start 0 [0x3F, 0x3D, 0x30, 0x31] [(0, 5), (1, 5)])
      (fun t => t.flag == true && t.pc == 4) = true := by decide
/-- C-2. -/
theorem test_ceq_clears :
    stepGives (start 0 [0x3F, 0x3D, 0x30, 0x31] [(0, 5), (1, 6)] true)
      (fun t => t.flag == false && t.pc == 4) = true := by decide
/-- C-3. -/
theorem test_cgt :
    stepGives (start 0 [0x3F, 0x3E, 0x30, 0x31] [(0, 0x80000000), (1, 1)])
      (fun t => t.flag == true && t.pc == 4) = true := by decide
/-- C-4. -/
theorem test_cgt_clears :
    stepGives (start 0 [0x3F, 0x3E, 0x30, 0x31] [(0, 1), (1, 0x80000000)] true)
      (fun t => t.flag == false && t.pc == 4) = true := by decide
/-- C-5. -/
theorem test_clt :
    stepGives (start 0 [0x3F, 0x3C, 0x30, 0x31] [(0, 3), (1, 5)])
      (fun t => t.flag == true && t.pc == 4) = true := by decide
/-- C-6. -/
theorem test_clt_clears :
    stepGives (start 0 [0x3F, 0x3C, 0x30, 0x31] [(0, 0xFFFFFFFF), (1, 0)] true)
      (fun t => t.flag == false && t.pc == 4) = true := by decide
/-- C-7. -/
theorem test_cne_clears :
    stepGives (start 0 [0x3F, 0x21, 0x30, 0x31] [(0, 5), (1, 5)] true)
      (fun t => t.flag == false && t.pc == 4) = true := by decide
/-- C-8. -/
theorem test_cne :
    stepGives (start 0 [0x3F, 0x21, 0x30, 0x31] [(0, 5), (1, 6)])
      (fun t => t.flag == true && t.pc == 4) = true := by decide
/-- K-1. -/
theorem test_movQ_skipped :
    stepGives (start 0 [0x3D, 0x3F, 0x31, 0x30] [(0, 9)])
      (fun t => t.reg 1 == 0 && t.pc == 4) = true := by decide
/-- K-2. -/
theorem test_movQ :
    stepGives (start 0 [0x3D, 0x3F, 0x31, 0x30] [(0, 9)] true)
      (fun t => t.reg 1 == 9 && t.pc == 4) = true := by decide
/-- K-3. -/
theorem test_addQ :
    stepGives (start 0 [0x2B, 0x3F, 0x30, 0x31] [(0, 5), (1, 3)] true)
      (fun t => t.reg 0 == 8 && t.flag && t.pc == 4) = true := by decide
/-- K-16. -/
theorem test_subQ :
    stepGives (start 0 [0x2D, 0x3F, 0x30, 0x31] [(0, 5), (1, 3)] true)
      (fun t => t.reg 0 == 2 && t.flag && t.pc == 4) = true := by decide
/-- K-17. -/
theorem test_mulQ :
    stepGives (start 0 [0x2A, 0x3F, 0x30, 0x31] [(0, 5), (1, 3)] true)
      (fun t => t.reg 0 == 15 && t.flag && t.pc == 4) = true := by decide
/-- K-18. -/
theorem test_andQ :
    stepGives (start 0 [0x26, 0x3F, 0x30, 0x31] [(0, 5), (1, 3)] true)
      (fun t => t.reg 0 == 1 && t.flag && t.pc == 4) = true := by decide
/-- K-19. -/
theorem test_orQ :
    stepGives (start 0 [0x7C, 0x3F, 0x30, 0x31] [(0, 5), (1, 3)] true)
      (fun t => t.reg 0 == 7 && t.flag && t.pc == 4) = true := by decide
/-- K-20. -/
theorem test_xorQ :
    stepGives (start 0 [0x5E, 0x3F, 0x30, 0x31] [(0, 5), (1, 3)] true)
      (fun t => t.reg 0 == 6 && t.flag && t.pc == 4) = true := by decide
/-- K-21. -/
theorem test_shrQ :
    stepGives (start 0 [0x3E, 0x3F, 0x30, 0x31] [(0, 5), (1, 1)] true)
      (fun t => t.reg 0 == 2 && t.flag && t.pc == 4) = true := by decide
/-- K-22. -/
theorem test_shlQ :
    stepGives (start 0 [0x3C, 0x3F, 0x30, 0x31] [(0, 5), (1, 1)] true)
      (fun t => t.reg 0 == 10 && t.flag && t.pc == 4) = true := by decide
/-- K-4. -/
theorem test_divQ_skipped :
    stepGives (start 0 [0x2F, 0x3F, 0x30, 0x31] [(0, 5)])
      (fun t => t.reg 0 == 5 && t.pc == 4 && t.runState == .fetch) = true := by decide
/-- K-5. -/
theorem test_divQ_by_zero :
    stepGives (start 0 [0x2F, 0x3F, 0x30, 0x31] [(0, 5)] true)
      (fun t => t.pc == 4 && haltedWith .divideByZero 1 t) = true := by decide
/-- K-6. -/
theorem test_jmpQ_skipped :
    stepGives (start 0 [0x4A, 0x3F, 0x34, 0x20] [(4, 0x28)])
      (fun t => t.pc == 4) = true := by decide
/-- K-7. -/
theorem test_jmpQ :
    stepGives (start 0 [0x4A, 0x3F, 0x34, 0x20] [(4, 0x28)] true)
      (fun t => t.pc == 0x28) = true := by decide
/-- K-8. -/
theorem test_sysQ_skipped :
    stepGives (start 0 [0x53, 0x3F, 0x30, 0x31] [(0, 7), (1, 8)])
      (fun t => t.pc == 4 && t.runState == .fetch) = true := by decide
/-- K-9. -/
theorem test_sysQ :
    stepGives (start 0 [0x53, 0x3F, 0x30, 0x31] [(0, 7), (1, 8)] true)
      (fun t => t.pc == 4 && haltedWith .none 8 t) = true := by decide
/-- K-10. -/
theorem test_conditional_compare_skipped :
    stepGives (start 0 [0x3F, 0x3F, 0x30, 0x31] [])
      (fun t => t.pc == 4 && t.runState == .fetch) = true := by decide
/-- K-11. -/
theorem test_conditional_compare :
    stepGives (start 0 [0x3F, 0x3F, 0x30, 0x31] [] true)
      (fun t => t.pc == 4 && haltedWith .invalidOpcode 1 t) = true := by decide
/-- K-15. -/
theorem test_conditional_store :
    stepGives (start 0 [0x5B, 0x3F, 0x30, 0x31] [(0, 0x100), (1, 1)] true)
      (fun t => t.mem.readByte 0x100 == 0 && haltedWith .invalidOpcode 1 t) = true := by decide
/-- J-1. -/
theorem test_jmp :
    stepGives (start 0 [0x4A, 0x20, 0x34, 0x20] [(4, 0x28)])
      (fun t => t.pc == 0x28) = true := by decide
/-- J-2. -/
theorem test_jmp_far :
    stepGives (start 0 [0x4A, 0x20, 0x30, 0x78] [(0, 0xFFFFFFFF)])
      (fun t => t.pc == 0xFFFFFFFF && t.runState == .fetch) = true := by decide
/-- F-1. -/
theorem test_last_window :
    stepGives (start 65532 [0x3D, 0x20, 0x30, 0x30] [])
      (fun t => t.pc == 0x10000 && t.runState == .fetch) = true := by decide
/-- F-2. -/
theorem test_fetch_out_of_bounds :
    stepGives (start 65533 [0x3D, 0x20, 0x30] [])
      (fun t => t.pc == 65533 && haltedWith .outOfBounds 1 t) = true := by decide
/-- F-4. -/
theorem test_zero_memory :
    stepGives (start 0 [0x00, 0x00, 0x00, 0x00] [])
      (fun t => t.pc == 4 && haltedWith .invalidOpcode 1 t) = true := by decide
/-- F-5. -/
theorem test_rsvLd16 :
    stepGives (start 0 [0x3D, 0x7B, 0x31, 0x30] [(0, 0x100)])
      (fun t => t.reg 1 == 0 && t.pc == 4 && haltedWith .invalidOpcode 1 t) = true := by decide
/-- F-6. -/
theorem test_rsvSt16 :
    stepGives (start 0 [0x7B, 0x3D, 0x30, 0x31] [(0, 0x100)])
      (fun t => t.pc == 4 && haltedWith .invalidOpcode 1 t) = true := by decide
/-- Y-1. -/
theorem test_exit :
    stepGives (start 0 [0x53, 0x20, 0x30, 0x31] [(0, 7), (1, 8)])
      (fun t => t.reg 0 == 7 && t.pc == 4 && haltedWith .none 8 t) = true := by decide
/-- Y-8. -/
theorem test_getargv_fill :
    stepGives { start 0 [0x53, 0x2B, 0x30, 0x31, 0x32, 0x2E, 0x2E, 0x2E] [(0, 5), (1, 0x200), (2, 0x18)] with
        guestArgv := progArgv }
      (fun t => t.reg 0 == 0x18 && t.pc == 8 && t.mem.readBytes 0x200 24 ==
      [0x0C, 2, 0, 0, 0x15, 2, 0, 0, 0, 0, 0, 0, 0x70, 0x72, 0x6F, 0x67, 0x2E, 0x69, 0x6D, 0x67, 0, 0x2D, 0x76, 0]) = true := by decide
/-- Y-13. -/
theorem test_read :
    stepGives { start 0 [0x53, 0x2B, 0x30, 0x31, 0x32, 0x33, 0x2E, 0x2E] [(0, 1), (1, 3), (2, 0x300), (3, 4)] with
        hostAnswers := [⟨2, [0x41, 0x42]⟩] }
      (fun t => t.mem.readBytes 0x300 3 == [0x41, 0x42, 0] && t.reg 0 == 2 && t.pc == 8) = true := by decide
/-- S-9. -/
theorem test_open_fails :
    stepGives { withBytes (start 0 [0x53, 0x20, 0x30, 0x31] [(1, 0x100)]) 0x100 [0x6E, 0x6F, 0x00] with
        hostAnswers := [⟨0xFFFFFFFF, []⟩] }
      (fun t => t.hostCalls == [.openFile [0x6E, 0x6F] 0 511] && t.reg 0 == 0xFFFFFFFF && t.runState == .fetch) = true := by decide

/-! ### Witnesses: the hypotheses of the obligations can be met -/

/-- `ResetEventEstablishesR26`: the longest image that fits, and the empty one. -/
theorem witness_ResetEventEstablishesR26 :
    (List.replicate 65536 (0x21 : Byte)).length ≤ Config.memSize ∧
    ([] : List Byte).length ≤ Config.memSize := by
  rw [List.length_replicate]
  decide

/-- `ResetEventMeetsInvariant`. -/
theorem witness_ResetEventMeetsInvariant :
    (∀ g ∈ { State.reset with guestArgv := progArgv }.guestArgv, (0 : Byte) ∉ g) ∧
    ({ State.reset with guestArgv := progArgv }.resetEvent [0x21, 0x21]).isSome = true := by decide

/-- `EntryPointAndEmptyImage`: the empty image, and one that is not. -/
theorem witness_EntryPointAndEmptyImage :
    (State.reset.resetEvent []).isSome = true ∧ (State.reset.resetEvent [0x21]).isSome = true := by decide

/-- `StepKeepsInvariant`: a state with registers, memory, arguments and a window that stores. -/
theorem witness_StepKeepsInvariant :
    { start 0 [0x28, 0x3D, 0x30, 0x31] [(0, 0x200), (1, 0x1234ABCD)] with guestArgv := progArgv }.Inv ∧
    stepGives { start 0 [0x28, 0x3D, 0x30, 0x31] [(0, 0x200), (1, 0x1234ABCD)] with guestArgv := progArgv }
      (fun t => t.mem.readByte 0x200 == 0xCD) = true := by
  refine ⟨⟨?_, ?_, ?_, ?_, ?_⟩, ?_⟩ <;> decide

/-- `CanonicalMemoriesThatReadAlikeAreEqual`: two writes in either order. -/
theorem witness_CanonicalMemoriesThatReadAlikeAreEqual :
    (Memory.writeByte (Memory.writeByte [] 1 7) 65535 9).wf = true ∧
    (Memory.writeByte (Memory.writeByte [] 65535 9) 1 7).wf = true ∧
    Memory.writeByte (Memory.writeByte [] 1 7) 65535 9 =
      Memory.writeByte (Memory.writeByte [] 65535 9) 1 7 := by decide

/-- `RegisterNamesDecodeByRange`: the ends of the three ranges and the bytes next to them. -/
theorem witness_RegisterNamesDecodeByRange :
    regName 0x30 = 0 ∧ regName 0x39 = 9 ∧ regName 0x41 = 10 ∧ regName 0x5A = 35 ∧ regName 0x61 = 36 ∧
    regName 0x7A = 61 ∧ regName 0x2F = 0 ∧ regName 0x3A = 0 ∧ regName 0x40 = 0 ∧ regName 0x5B = 0 ∧
    regName 0x60 = 0 ∧ regName 0x7B = 0 := by decide

/-- `DecodeOfEncodeIsIdentity`: operands at the ends of their range. -/
theorem witness_DecodeOfEncodeIsIdentity :
    Instr.wellFormed (.sysx 0 61 9 10 35 36) = true ∧ Instr.wellFormed (.ldi 61 0xFFFFFFFF) = true ∧
    Instr.wellFormed (.ldh 0 0 0xFF 0x30 0x66) = true := by decide

/-- `DecodedInstructionsAreWellFormed`: operand bytes that are no names. -/
theorem witness_DecodedInstructionsAreWellFormed :
    decode [0x53, 0x2B, 0xFF, 0x7A, 0x00, 0x7B, 0x5A, 0x61] = .ok (.sysx 0 61 0 0 35 36) := by decide

/-- `DecodeAcceptsExactlyTheOpcodeMap`: a pair of the map and one outside it. -/
theorem witness_DecodeAcceptsExactlyTheOpcodeMap :
    ((0x53 : Byte), (0x2B : Byte)) ∈ basePairs ++ otherPairs ∧
    ((0x3F : Byte), (0x3F : Byte)) ∉ basePairs ++ otherPairs := by decide

/-- `OperandBytesActOnlyThroughTheirNames`: two bytes that name register 0. -/
theorem witness_OperandBytesActOnlyThroughTheirNames :
    regName 0x2E = regName 0x30 ∧ ((0x4A : Byte), (0x3F : Byte)) ∈
      [((0x3D : Byte), (0x23 : Byte)), (0x3D, 0x24), (0x4A, 0x20), (0x4A, 0x3F)] := by decide

/-- `StepRunsTheDecodedInstruction`: a long and a short instruction at the end of memory. -/
theorem witness_StepRunsTheDecodedInstruction :
    (start 65528 [0x3D, 0x23, 0x30, 0x20, 0x30, 0x30, 0x31, 0x30] []).runState = .fetch ∧
    (start 65528 [0x3D, 0x23, 0x30, 0x20, 0x30, 0x30, 0x31, 0x30] []).pc.toNat + 8 ≤ Config.memSize ∧
    decode ((start 65528 [0x3D, 0x23, 0x30, 0x20, 0x30, 0x30, 0x31, 0x30] []).mem.readBytes 65528 8) =
      .ok (.ldh 0 0x30 0x30 0x31 0x30) ∧
    (start 65532 [0x2B, 0x20, 0x30, 0x31] []).pc.toNat + 4 ≤ Config.memSize ∧
    decode ((start 65532 [0x2B, 0x20, 0x30, 0x31] []).mem.readBytes 65532 4) = .ok (.add 0 1) := by decide

/-- `RunStateMachine`: a core that fetches, one a fault has halted, and one that exits by each of the three
syscall forms. -/
theorem witness_RunStateMachine :
    State.reset.runState = .fetch ∧ (State.reset.raise (.outOfBounds 0)).runState = .halted ∧
    stepGives (start 0 [0x53, 0x20, 0x30, 0x31] [(0, 7), (1, 8)]) (haltedWith .none 8) = true ∧
    stepGives (start 0 [0x53, 0x3F, 0x30, 0x31] [(0, 7), (1, 8)] true) (haltedWith .none 8) = true ∧
    stepGives (start 0 [0x53, 0x2B, 0x30, 0x31] [(0, 7), (1, 8)]) (haltedWith .none 8) = true := by decide

/-- `FetchOutOfBoundsHaltsInPlace`: the first `pc` out of range, and the last of all. -/
theorem witness_FetchOutOfBoundsHaltsInPlace :
    Config.memSize < (start 65533 [] []).pc.toNat + 4 ∧
    Config.memSize < (start 0xFFFFFFFF [] []).pc.toNat + 4 ∧ (start 65533 [] []).runState = .fetch := by
  decide

/-- `UnlistedPairsAreInvalidOpcodes`: `!!`, a conditional compare, a conditional store, a reserved pair. -/
theorem witness_UnlistedPairsAreInvalidOpcodes :
    (start 0 [0x21, 0x21, 0x21, 0x21] []).CanFetch ∧
    ((0x21 : Byte), (0x21 : Byte)) ∉ basePairs ∧ ((0x3F : Byte), (0x20 : Byte)) ∉ basePairs ∧
    ((0x5B : Byte), (0x20 : Byte)) ∉ basePairs ∧ ((0x3D : Byte), (0x7B : Byte)) ∉ basePairs ∧
    ¬ ((start 0 [0x3F, 0x3F, 0x30, 0x31] [] true).windowByte 1 = 0x3F ∧
      (start 0 [0x3F, 0x3F, 0x30, 0x31] [] true).flag = false) := by
  refine ⟨⟨?_, ?_⟩, ?_⟩ <;> decide

/-- `ConditionalModifier`: skipped, run, and run into an invalid opcode. -/
theorem witness_ConditionalModifier :
    (start 65532 [0x3D, 0x3F, 0x31, 0x30] []).CanFetch ∧
    (start 65532 [0x3D, 0x3F, 0x31, 0x30] []).windowByte 1 = 0x3F ∧
    (start 65532 [0x3D, 0x3F, 0x31, 0x30] []).flag = false ∧
    (start 65532 [0x3D, 0x3F, 0x31, 0x30] [] true).flag = true ∧
    decode [0x3D, 0x20, 0x31, 0x30] = .ok (.mov 1 0) ∧
    decode [0x3F, 0x20, 0x31, 0x30] = .error (.invalidOpcode 0x3F 0x20) := by
  refine ⟨⟨?_, ?_⟩, ?_⟩ <;> decide

/-- `ProgramCounterAfterAStep`: a window out of bounds, a skip, a jump, a long form, a short form. -/
theorem witness_ProgramCounterAfterAStep :
    stepGives (start 65533 [] []) (fun t => t.pc == 65533) = true ∧
    stepGives (start 65532 [0x4A, 0x3F, 0x30, 0x20] []) (fun t => t.pc == 65536) = true ∧
    stepGives (start 65532 [0x4A, 0x20, 0x30, 0x20] [(0, 9)]) (fun t => t.pc == 9) = true ∧
    stepGives (start 65528 [0x3D, 0x24, 0x30, 0x20] []) (fun t => t.pc == 65536) = true ∧
    stepGives (start 65529 [0x3D, 0x24, 0x30, 0x20] []) (fun t => t.pc == 65533) = true ∧
    stepGives (start 65532 [0x3D, 0x20, 0x30, 0x31] []) (fun t => t.pc == 65536) = true := by decide

/-- `OnlyTheDestinationRegisterChanges`: a form that writes a register, a store and a jump. -/
theorem witness_OnlyTheDestinationRegisterChanges :
    stepGives (start 0 [0x2B, 0x20, 0x30, 0x31] [(0, 5), (1, 3)]) (fun t => t.reg 0 == 8) = true ∧
    stepGives (start 0 [0x28, 0x3D, 0x30, 0x31] [(0, 65532)]) (fun t => t.reg 0 == 65532) = true ∧
    stepGives (start 0 [0x4A, 0x20, 0x30, 0x20] [(0, 64)]) (fun t => t.reg 0 == 64) = true := by decide

/-- `OnlyComparesChangeTheFlag`: a step that changes the flag. -/
theorem witness_OnlyComparesChangeTheFlag :
    stepGives (start 0 [0x3F, 0x3D, 0x30, 0x31] []) (fun t => t.flag) = true := by decide

/-- The state of a `SYSX` with six values, the window at 0 and the answers of the host given. -/
def sysxStart (n a1 a2 a3 : Word) (answers : List HostAnswer) : State :=
  { start 0 [0x53, 0x2B, 0x30, 0x31, 0x32, 0x33, 0x2E, 0x2E] [(0, n), (1, a1), (2, a2), (3, a3)] with
    guestArgv := progArgv
    hostAnswers := answers }

/-- `OnlyStoresAndSyscallsChangeMemory`: a changed byte by each of the four ways, at the ends of memory. -/
theorem witness_OnlyStoresAndSyscallsChangeMemory :
    stepGives (start 0 [0x5B, 0x3D, 0x30, 0x31] [(0, 65535), (1, 7)])
      (fun t => t.mem.readByte 65535 == 7) = true ∧
    stepGives (start 0 [0x28, 0x3D, 0x30, 0x31] [(0, 65532), (1, 0x01020304)])
      (fun t => t.mem.readByte 65535 == 1) = true ∧
    stepGives (sysxStart 1 3 65534 2 [⟨2, [0x41, 0x42]⟩])
      (fun t => t.mem.readByte 65535 == 0x42 && t.pc == 8) = true ∧
    stepGives (sysxStart 5 65512 24 0 []) (fun t => t.mem.readByte 65534 == 0x76) = true := by decide

/-- `OnlySyscallsReachTheHost`: a step that asks the host, one that does not, and a skipped syscall. -/
theorem witness_OnlySyscallsReachTheHost :
    stepGives (sysxStart 3 3 0x40 2 [⟨0x40, []⟩])
      (fun t => t.hostCalls == [.lseek 3 0x40 .seekSet]) = true ∧
    stepGives (start 0 [0x3D, 0x20, 0x30, 0x31] []) (fun t => t.hostCalls == []) = true ∧
    stepGives (start 0 [0x53, 0x3F, 0x30, 0x31] [(0, 4)]) (fun t => t.hostCalls == []) = true := by decide

/-- `FaultsArePrecise`: a fault of every kind, by a step of a core that recorded none. -/
theorem witness_FaultsArePrecise :
    stepGives (start 0 [0x21, 0x21, 0x21, 0x21] []) (haltedWith .invalidOpcode 1) = true ∧
    stepGives (start 0 [0x53, 0x20, 0x30, 0x31] [(0, 6)]) (haltedWith .invalidSyscall 1) = true ∧
    stepGives (start 0 [0x3D, 0x28, 0x31, 0x30] [(0, 65533)]) (haltedWith .outOfBounds 1) = true ∧
    stepGives (start 0 [0x2F, 0x20, 0x30, 0x31] []) (haltedWith .divideByZero 1) = true := by decide

/-- `Register62IsInvisible` and `HaltCodeIsNeverRead`: a step that goes on, and one that halts. -/
theorem witness_Register62IsInvisible :
    stepGives ((start 0 [0x2B, 0x20, 0x30, 0x31] [(0, 5), (1, 3)]).setReg 62 0xFFFFFFFF)
      (fun t => t.reg 0 == 8 && t.reg 62 == 0xFFFFFFFF) = true ∧
    stepGives { start 0 [0x2B, 0x20, 0x30, 0x31] [(0, 5), (1, 3)] with haltCode := 9 }
      (fun t => t.reg 0 == 8 && t.haltCode == 9) = true ∧
    stepGives { start 0 [0x53, 0x20, 0x30, 0x31] [(0, 7), (1, 8)] with haltCode := 9 }
      (haltedWith .none 8) = true := by decide

/-- `StoreIsSeenByTheNextFetch`: the first and the last byte of the last window. -/
theorem witness_StoreIsSeenByTheNextFetch :
    (start 65528 [0x5B, 0x3D, 0x30, 0x31] [(0, 65532), (1, 0x2D)]).CanFetch ∧
    (start 65528 [0x5B, 0x3D, 0x30, 0x31] [(0, 65535), (1, 0x2D)]).CanFetch ∧
    (start 65528 [0x5B, 0x3D, 0x30, 0x31] [(0, 65535), (1, 0x2D)]).HasPair 0x5B 0x3D ∧
    (start 65528 [0x5B, 0x3D, 0x30, 0x31] [(0, 65535), (1, 0x2D)]).pc.toNat + 8 ≤ Config.memSize := by
  refine ⟨⟨?_, ?_⟩, ⟨?_, ?_⟩, ⟨?_, ?_⟩, ?_⟩ <;> decide

/-- `LdhLoadsTheHexLiteral`, `LdiLoadsTheWordLiteral`, `SyscallFormsAreSpelled`: the first and the last
window whose extension bytes do not fit, by each of the three pairs. -/
theorem witness_ExtensionFaults :
    (start 65529 [0x3D, 0x23] []).CanFetch ∧ (start 65529 [0x3D, 0x23] []).HasPair 0x3D 0x23 ∧
    Config.memSize < (start 65529 [0x3D, 0x23] []).pc.toNat + 8 ∧
    (start 65532 [0x3D, 0x24] []).CanFetch ∧ (start 65532 [0x3D, 0x24] []).HasPair 0x3D 0x24 ∧
    (start 65532 [0x53, 0x2B] []).CanFetch ∧ (start 65532 [0x53, 0x2B] []).HasPair 0x53 0x2B := by
  refine ⟨⟨?_, ?_⟩, ⟨?_, ?_⟩, ?_, ⟨?_, ?_⟩, ⟨?_, ?_⟩, ⟨?_, ?_⟩, ⟨?_, ?_⟩⟩ <;> decide

/-- `LdhLoadsTheHexLiteral`: digits at the ends of both ranges, bytes that are no digit, registers at the
ends of the nameable range. -/
theorem witness_LdhLoadsTheHexLiteral :
    HexDigit 0x30 0 ∧ HexDigit 0x39 9 ∧ HexDigit 0x41 10 ∧ HexDigit 0x46 15 ∧
    (∀ d, ¬ HexDigit 0x66 d) ∧ (∀ d, ¬ HexDigit 0x3A d) ∧ (∀ d, ¬ HexDigit 0x47 d) ∧
    RegIdx.nameable 0 = true ∧ RegIdx.nameable 61 = true := by
  refine ⟨?_, ?_, ?_, ?_, ?_, ?_, ?_, ?_, ?_⟩ <;> simp [HexDigit, RegIdx.nameable] <;> omega

/-- `LdbLoadsAZeroExtendedByte`, `LdwLoadsALittleEndianWord`, `StbStoresTheLowByte`,
`StwStoresALittleEndianWord`, `StoreThenLoadReturnsTheWord`: the last address that fits and the first that
does not, for a byte and for a word. -/
theorem witness_LoadsAndStores :
    ((start 0 [] [(0, 65535)]).reg 0).toNat < Config.memSize ∧
    Config.memSize ≤ ((start 0 [] [(0, 65536)]).reg 0).toNat ∧
    ((start 0 [] [(0, 65532)]).reg 0).toNat + 4 ≤ Config.memSize ∧
    Config.memSize < ((start 0 [] [(0, 65533)]).reg 0).toNat + 4 := by decide

/-- `MixedWidthsSeePlainBytes`, first clause: a word stored at the end of memory and its last byte read. -/
theorem witness_MixedWidths_word :
    execGives (.stw 0 1) (start 0 [] [(0, 65532), (1, 0x1234ABCD), (2, 65535)])
      (fun t => execGives (.ldb 3 2) t (fun u => u.reg 3 == 0x12)) = true := by decide

/-- `MixedWidthsSeePlainBytes`, second clause: four bytes stored at the end of memory and read as a word. -/
theorem witness_MixedWidths_bytes :
    execGives (.stb 0 4) (start 0 [] [(0, 65532), (1, 65533), (2, 65534), (3, 65535), (4, 0x1FF), (5, 2)])
      (fun t0 => execGives (.stb 1 5) t0 (fun t1 => execGives (.stb 2 5) t1 (fun t2 =>
        execGives (.stb 3 4) t2 (fun t3 => execGives (.ldw 6 0) t3 (fun u =>
          u.reg 6 == 0xFF0202FF))))) = true := by decide

/-- `DivRoundsDownOrFaults` and `ConditionalDivide`: a divisor that is not 0 and one that is, both flags. -/
theorem witness_Divide :
    (start 0 [] [(1, 1)] true).reg 1 ≠ 0 ∧ (start 0 [] [] true).reg 1 = 0 ∧
    (start 0 [] [] true).flag = true ∧ (start 0 [] []).flag = false := by decide

/-- `JumpsWriteThePc`: a target that cannot be fetched from, and both flags. -/
theorem witness_JumpsWriteThePc :
    (start 0 [] [(0, 65533)]).runState = .fetch ∧
    Config.memSize < ((start 0 [] [(0, 65533)]).reg 0).toNat + 4 ∧
    (start 0 [] [] true).flag = true ∧ (start 0 [] []).flag = false := by decide

/-- The six values a `SYS` in the state `start 0 [] [(0, n), (1, a1)]` hands over. -/
theorem witness_MakesSyscall_sys (n a1 : Word) :
    MakesSyscall (.sys 0 1) (start 0 [] [(0, n), (1, a1)]) 0 ⟨n, a1, 0, 0, 0, 0⟩ 0 :=
  .sys 0 1 _

/-- The same by `SYS?` with the flag set. -/
theorem witness_MakesSyscall_sysQ (n a1 : Word) :
    MakesSyscall (.sysQ 0 1) (start 0 [] [(0, n), (1, a1)] true) 0 ⟨n, a1, 0, 0, 0, 0⟩ 0 :=
  .sysQ 0 1 _ rfl

/-- The same by `SYSX`, which names four more registers. -/
theorem witness_MakesSyscall_sysx (n a1 a2 a3 : Word) (answers : List HostAnswer) :
    MakesSyscall (.sysx 0 1 2 3 4 4) (sysxStart n a1 a2 a3 answers) 0 ⟨n, a1, a2, a3, 0, 0⟩ 4 :=
  .sysx 0 1 2 3 4 4 _

/-- The three forms above are well-formed. -/
theorem witness_MakesSyscall_wellFormed :
    Instr.wellFormed (.sys 0 1) = true ∧ Instr.wellFormed (.sysQ 0 1) = true ∧
    Instr.wellFormed (.sysx 0 1 2 3 4 4) = true := by decide

/-- `ExitHaltsWithItsCode` and `OtherSyscallNumbersAreInvalid`: number 7 and both ends of the invalid
numbers, by `exec`. -/
theorem witness_ExitAndInvalidNumbers :
    execGives (.sysQ 0 1) (start 0 [] [(0, 7), (1, 0x11223344)] true) (haltedWith .none 0x11223344) = true ∧
    execGives (.sys 0 1) (start 0 [] [(0, 6)]) (haltedWith .invalidSyscall 1) = true ∧
    execGives (.sys 0 1) (start 0 [] [(0, 8)]) (haltedWith .invalidSyscall 1) = true ∧
    execGives (.sysx 0 1 2 3 4 4) (sysxStart 0xFFFFFFFF 0 0 0 [])
      (fun t => haltedWith .invalidSyscall 1 t && t.pc == 4) = true := by decide

/-- `OpenAsksForThePath`, first clause: a path whose zero byte is the last byte of memory, and the empty
path. -/
theorem witness_OpenAsksForThePath_path :
    HasPath (withBytes (start 0 [] [(1, 65533)]) 65533 [0x6E, 0x6F]) 65533 [0x6E, 0x6F] ∧
    HasPath (start 0 [] [(1, 65535)]) 65535 [] := by
  refine ⟨⟨?_, ?_, ?_⟩, ⟨?_, ?_, ?_⟩⟩ <;> decide

/-- `OpenAsksForThePath`, second clause (Y-18): no zero byte before the end of memory, and an offset past
it. -/
theorem witness_OpenAsksForThePath_fault :
    (∀ k, (65535 : Word).toNat ≤ k → k < Config.memSize →
      (withBytes (start 0 [] [(1, 65535)]) 65535 [0x41]).mem.readByte k ≠ 0) ∧
    (∀ k, (65536 : Word).toNat ≤ k → k < Config.memSize → (start 0 [] []).mem.readByte k ≠ 0) := by
  have hm : Config.memSize = 65536 := rfl
  constructor
  · intro k h1 h2
    have h3 : (65535 : Word).toNat = 65535 := by decide
    obtain rfl : k = 65535 := by omega
    decide
  · intro k h1 h2
    have h3 : (65536 : Word).toNat = 65536 := by decide
    omega

/-- `ReadDeliversIntoItsWindow` and `WriteHandsOverItsBytes`: a window that ends with memory, one byte
more, and an empty one at the end (Y-14). -/
theorem witness_ReadAndWriteWindows :
    (65532 : Word).toNat + (4 : Word).toNat ≤ Config.memSize ∧
    Config.memSize < (65532 : Word).toNat + (5 : Word).toNat ∧
    (65536 : Word).toNat + (0 : Word).toNat ≤ Config.memSize ∧
    execGives (.sysx 0 1 2 3 4 4) (sysxStart 1 3 65534 4 []) (haltedWith .outOfBounds 1) = true ∧
    execGives (.sysx 0 1 2 3 4 4) (sysxStart 2 1 0 2 [⟨2, []⟩])
      (fun t => t.hostCalls == [.write 1 [0x53, 0x2B]] && t.reg 0 == 2) = true := by decide

/-- `LseekAndCloseAskTheHost` (Y-16, Y-17): both numbers. -/
theorem witness_LseekAndCloseAskTheHost :
    execGives (.sysx 0 1 2 3 4 4) (sysxStart 3 3 0x40 2 [⟨0x40, []⟩]) (fun t => t.reg 0 == 0x40) = true ∧
    execGives (.sysx 0 1 2 3 4 4) (sysxStart 4 3 0 0 [⟨0, []⟩])
      (fun t => t.hostCalls == [.close 3] && t.reg 0 == 0) = true := by decide

/-- `HostAnswersKeepTheirShape`: a queue with an answer and an empty one; the largest result that is no
failure, the least that is, with as many bytes as the count; a result equal to the count and to the number of
bytes. -/
theorem witness_HostAnswersKeepTheirShape :
    (sysxStart 1 3 0x300 2 [⟨0x80000000, [0x41, 0x42]⟩]).hostAnswers = [⟨0x80000000, [0x41, 0x42]⟩] ∧
    State.reset.hostAnswers = [] ∧
    (0x7FFFFFFF : Word).toNat < 2 ^ 31 ∧ 2 ^ 31 ≤ (0x80000000 : Word).toNat ∧
    ([0x41, 0x42] : List Byte).length ≤ (2 : Word).toNat ∧ (2 : Word).toNat ≤ (2 : Word).toNat ∧
    ([0x41, 0x42] : List Byte).length = (2 : Word).toNat := by decide

/-- `GetargvProbesOrFills`, `GetargvWritesOffsetsThenStrings` (Y-7 to Y-10): one byte short, exactly enough
at the end of memory, and one address further. -/
theorem witness_Getargv :
    (sysxStart 5 65512 24 0 []).guestArgv = progArgv ∧
    24 = 4 * (progArgv.length + 1) + (progArgv.map fun g => g.length + 1).sum ∧
    (23 : Word).toNat < 24 ∧ 24 ≤ (24 : Word).toNat ∧
    (65512 : Word).toNat + 24 ≤ Config.memSize ∧ Config.memSize < (65513 : Word).toNat + 24 ∧
    execGives (.sysx 0 1 2 3 4 4) (sysxStart 5 65512 23 0 [])
      (fun t => t.reg 0 == 24 && t.mem.readByte 65534 == 0) = true ∧
    execGives (.sysx 0 1 2 3 4 4) (sysxStart 5 65512 24 0 [])
      (fun t => t.reg 0 == 24 && t.mem.readByte 65534 == 0x76) = true ∧
    execGives (.sysx 0 1 2 3 4 4) (sysxStart 5 65513 24 0 []) (haltedWith .outOfBounds 1) = true := by decide

/-- The forms without hypotheses but for the flag: `ConditionalMoveAndArithmetic`,
`ConditionalBitwiseAndShifts`, with the flag 1 and 0. -/
theorem witness_ConditionalForms :
    execGives (.xorQ 0 0) (start 0 [] [(0, 5)] true) (fun t => t.reg 0 == 0) = true ∧
    execGives (.xorQ 0 0) (start 0 [] [(0, 5)]) (fun t => t.reg 0 == 5) = true := by decide

end Sys2Proof.Tests
end

section
/-! PROOFS. The family `10_state`: the reset event, the invariant, the registers a step names and what no
step reads. -/

namespace Sys2Proof.Machine

/-! ### What an update keeps of the invariant -/

/-- A register an operand byte can name is not `x[62]` (rule R14). -/
theorem nameable_ne_62 {r : RegIdx} (h : r.nameable = true) : r ≠ 62 := by
  rintro rfl
  exact absurd h (by decide)

theorem windowReg_ne_62 (s : State) (k : Nat) : s.windowReg k ≠ 62 :=
  nameable_ne_62 (windowReg_nameable s k)

theorem State.Inv.setReg {s : State} (h : s.Inv) {r : RegIdx} (hr : r ≠ 62) (v : Word) :
    (s.setReg r v).Inv :=
  ⟨h.memory, by rw [reg_setReg_ne s v hr.symm]; exact h.reg62, h.noFault, h.faultCode, h.argv⟩

theorem State.Inv.setPc {s : State} (h : s.Inv) (v : Word) : (s.setPc v).Inv := h.setReg (by decide) v

theorem State.Inv.advance {s : State} (h : s.Inv) : s.advance.Inv := h.setPc _

theorem State.Inv.setFlag {s : State} (h : s.Inv) (b : Bool) : (s.setFlag b).Inv :=
  ⟨h.memory, h.reg62, h.noFault, h.faultCode, h.argv⟩

theorem State.Inv.drawAny {s : State} (h : s.Inv) : s.drawAny.Inv :=
  ⟨h.memory, h.reg62, h.noFault, h.faultCode, h.argv⟩

theorem State.Inv.askHost {s : State} (h : s.Inv) (c : HostCall) : (s.askHost c).Inv :=
  ⟨h.memory, h.reg62, h.noFault, h.faultCode, h.argv⟩

/-- Bytes written below `MEM_SIZE` keep the invariant (rule R34). -/
theorem State.Inv.writeBytes {s : State} (h : s.Inv) {a : Nat} {bs : List Byte}
    (hb : a + bs.length ≤ Config.memSize) : (s.setMem (s.mem.writeBytes a bs)).Inv :=
  ⟨Memory.writeBytes_wf bs hb h.memory, h.reg62, h.noFault, h.faultCode, h.argv⟩

/-- A fatal fault keeps the invariant whatever it found: it presents the fatal code (rule R132). -/
theorem State.Inv.raise {s : State} (h : s.Inv) (c : FaultCause) : (s.raise c).Inv :=
  ⟨h.memory, h.reg62, (fun hr => nomatch hr), fun _ => rfl, h.argv⟩

/-- The guest's exit keeps the invariant of a running core: it has no fault recorded (rule R136). -/
theorem State.Inv.halt {s : State} (h : s.Inv) (hr : s.runState = .fetch) (code : Word) :
    (s.halt code).Inv :=
  ⟨h.memory, h.reg62, (fun hr => nomatch hr), fun hk => absurd (h.noFault hr) hk, h.argv⟩

/-- A syscall keeps the invariant of a running core, its result going to any register but `x[62]`. -/
theorem State.Inv.syscallForm {s : State} (h : s.Inv) (hr : s.runState = .fetch) {d : RegIdx}
    (hd : d ≠ 62) (q : SyscallArgs) : (syscallForm d q s).Inv := by
  rcases syscallForm_cases d q s with ⟨c, e, -⟩ | ⟨-, e⟩ | ⟨v, e⟩ | ⟨-, -, hb, e⟩ | ⟨-, v, c, e⟩ |
    ⟨-, hb, v, e⟩ <;> rw [e]
  · exact h.raise c
  · exact h.halt hr q.a1
  · exact h.setReg hd v
  · exact (h.writeBytes (by rwa [length_argvBlock])).setReg hd _
  · exact (h.askHost c).setReg hd v
  · have hlen := length_readData_le s.nextAnswer q.a3
    exact ((h.askHost _).writeBytes (by omega)).setReg hd v

/-- Settles O5, by the effects a step can have, each a chain of updates that keep the invariant. -/
theorem stepKeepsInvariant : Obligations.StepKeepsInvariant := by
  intro s t h hstep
  obtain ⟨hr, he⟩ := step_effect hstep
  have hd := windowReg_ne_62 s 2
  cases he with
  | fetchFault => exact h.raise _
  | skip => exact h.advance
  | fault => exact h.advance.raise _
  | write => exact h.advance.setReg hd _
  | literal => exact h.advance.advance.setReg hd _
  | badLiteral => exact h.advance.advance.drawAny.setReg hd _
  | compare => exact h.advance.setFlag _
  | storeByte _ _ hb => exact h.advance.writeBytes (by rwa [length_leBytes])
  | storeWord _ _ hb => exact h.advance.writeBytes (by rwa [length_leBytes])
  | jump => exact h.advance.setPc _
  | syscall => exact h.advance.syscallForm hr hd _
  | syscallExt => exact h.advance.advance.syscallForm hr hd _

/-! ### The program counter -/

/-- A syscall does not move `pc`, its result going to any other register (rule R113). -/
theorem pc_syscallForm {d : RegIdx} (hd : d ≠ pcIndex) (q : SyscallArgs) (s : State) :
    (syscallForm d q s).pc = s.pc := by
  rcases syscallForm_cases d q s with ⟨c, e, -⟩ | ⟨-, e⟩ | ⟨v, e⟩ | ⟨-, -, -, e⟩ | ⟨-, v, c, e⟩ |
    ⟨-, -, v, e⟩ <;> simp [e, hd.symm]

/-- The base advance and the extension advance together (rule R18). -/
theorem pc_advance_advance (s : State) : s.advance.advance.pc = s.pc + 8 := by
  rw [pc_advance, pc_advance, BitVec.add_assoc]
  rfl

/-- The window is a jump, skipped or not (rules R107, R127). -/
def State.IsJump (s : State) : Prop :=
  s.windowByte 0 = 0x4A ∧ (s.windowByte 1 = 0x20 ∨ s.windowByte 1 = 0x3F)

/-- The window is a long form and its extension bytes lie in memory (rule R51). -/
def State.IsLong (s : State) : Prop :=
  (s.windowByte 0, s.windowByte 1) ∈ longPairs ∧ s.pc.toNat + 8 ≤ Config.memSize

/-- The program counter `ProgramCounterAfterAStep` asks for after a step from `s`; the lemmas below read its
chain of tests off by case. -/
def State.pcAfter (s : State) : Word :=
  if Config.memSize < s.pc.toNat + 4 then s.pc
  else if s.windowByte 1 = 0x3F ∧ s.flag = false then s.pc + 4
  else if s.windowByte 0 = 0x4A ∧ (s.windowByte 1 = 0x20 ∨ s.windowByte 1 = 0x3F) then
    s.reg (s.windowReg 2)
  else if (s.windowByte 0, s.windowByte 1) ∈ longPairs ∧ s.pc.toNat + 8 ≤ Config.memSize then s.pc + 8
  else s.pc + 4

theorem pcAfter_of_not_fits {s : State} (h : Config.memSize < s.pc.toNat + 4) : s.pcAfter = s.pc :=
  if_pos h

theorem pcAfter_of_skips {s : State} (hf : s.Fits) (h : s.Skips) : s.pcAfter = s.pc + 4 :=
  (if_neg (Nat.not_lt.2 hf)).trans (if_pos h)

theorem pcAfter_of_isJump {s : State} (hf : s.Fits) (hs : ¬ s.Skips) (h : s.IsJump) :
    s.pcAfter = s.reg (s.windowReg 2) :=
  (if_neg (Nat.not_lt.2 hf)).trans ((if_neg hs).trans (if_pos h))

theorem pcAfter_of_short {s : State} (hf : s.Fits) (hs : ¬ s.Skips) (hj : ¬ s.IsJump)
    (hl : ¬ s.IsLong) : s.pcAfter = s.pc + 4 :=
  (if_neg (Nat.not_lt.2 hf)).trans ((if_neg hs).trans ((if_neg hj).trans (if_neg hl)))

/-- A window with an unmarked pair that is neither a jump nor long. -/
theorem pcAfter_of_hasPair {s : State} {op1 op2 : Byte} (hf : s.Fits) (h : s.HasPair op1 op2)
    (h1 : op1 ≠ 0x4A) (h2 : op2 ≠ 0x3F) (hl : (op1, op2) ∉ longPairs) : s.pcAfter = s.pc + 4 := by
  obtain ⟨rfl, rfl⟩ := h
  exact pcAfter_of_short hf (fun hs => h2 hs.1) (fun hj => h1 hj.1) (fun h => hl h.1)

/-- A long form whose extension bytes lie in memory: no long pair is conditional or a jump. -/
theorem pcAfter_of_isLong {s : State} (h : s.IsLong) : s.pcAfter = s.pc + 8 := by
  obtain ⟨hm, h8⟩ := h
  have hpair : s.windowByte 1 ≠ 0x3F ∧ s.windowByte 0 ≠ 0x4A := by
    have hall : ∀ p ∈ longPairs, p.2 ≠ 0x3F ∧ p.1 ≠ 0x4A := by simp [longPairs]
    exact hall _ hm
  have hf : ¬ Config.memSize < s.pc.toNat + 4 := by omega
  exact (if_neg hf).trans ((if_neg fun hs => hpair.1 hs.1).trans
    ((if_neg fun hj => hpair.2 hj.1).trans (if_pos ⟨hm, h8⟩)))

/-- After any step `pc` is the one the window at `pc` asks for. -/
theorem pc_of_stepEffect {s t : State} (h : StepEffect s t) : t.pc = s.pcAfter := by
  have hd : pcIndex ≠ s.windowReg 2 := (windowReg_ne_pc s 2).symm
  cases h with
  | fetchFault h => rw [pcAfter_of_not_fits h, pc_raise]
  | skip hf h => rw [pcAfter_of_skips hf h, pc_advance]
  | fault hf hs hj hl =>
    have hlong : ¬ s.IsLong := fun ⟨hm, h8⟩ => by have := hl hm; omega
    rw [pcAfter_of_short hf hs hj hlong, pc_raise, pc_advance]
  | write hf hs hp hl =>
    rw [pcAfter_of_short hf hs (fun hj => hp.2.2 hj.1) (fun h => hl h.1), pc_setReg_ne _ _ hd,
      pc_advance]
  | literal h8 h0 h1 =>
    have hlong : s.IsLong := ⟨by rw [h0]; rcases h1 with h1 | h1 <;> rw [h1] <;> decide, h8⟩
    rw [pcAfter_of_isLong hlong, pc_setReg_ne _ _ hd, pc_advance_advance]
  | badLiteral h8 h0 h1 =>
    have hlong : s.IsLong := ⟨by rw [h0, h1]; decide, h8⟩
    rw [pcAfter_of_isLong hlong, pc_setReg_ne _ _ hd, pc_drawAny, pc_advance_advance]
  | compare hf h0 h1 =>
    have hop : s.windowByte 1 ≠ 0x3F ∧ ((0x3F : Byte), s.windowByte 1) ∉ longPairs := by
      have hall : ∀ op2 ∈ [(0x3D : Byte), 0x3E, 0x3C, 0x21],
          op2 ≠ 0x3F ∧ ((0x3F : Byte), op2) ∉ longPairs := by decide
      exact hall _ h1
    rw [pcAfter_of_hasPair hf ⟨h0, rfl⟩ (by decide) hop.1 hop.2, pc_setFlag, pc_advance]
  | storeByte hf h | storeWord hf h =>
    rw [pcAfter_of_hasPair hf h (by decide) (by decide) (by decide), pc_setMem, pc_advance]
  | jump hf hs h0 h1 => rw [pcAfter_of_isJump hf hs ⟨h0, h1⟩, pc_setPc]
  | syscall hf hs h0 h1 =>
    have hlong : ¬ s.IsLong := by
      rintro ⟨hm, -⟩
      rw [h0] at hm
      rcases h1 with h1 | h1 <;> rw [h1] at hm <;> exact absurd hm (by decide)
    rw [pcAfter_of_short hf hs (fun hj => absurd (h0.symm.trans hj.1) (by decide)) hlong,
      pc_syscallForm hd.symm, pc_advance]
  | syscallExt h8 h =>
    obtain ⟨h0, h1⟩ := h
    have hlong : s.IsLong := ⟨by rw [h0, h1]; decide, h8⟩
    rw [pcAfter_of_isLong hlong, pc_syscallForm hd.symm, pc_advance_advance]

/-- Settles O19: the statement's chain of tests is `State.pcAfter`. -/
theorem programCounterAfterAStep : Obligations.ProgramCounterAfterAStep := by
  intro s t hstep
  obtain ⟨-, he⟩ := step_effect hstep
  exact pc_of_stepEffect he

/-! ### Registers and the flag -/

/-- What two updates in a row keep. -/
theorem KeepsRegs.trans {l l' m : List RegIdx} {s t u : State} (h : KeepsRegs l s t)
    (h' : KeepsRegs l' t u) (hl : l ⊆ m) (hl' : l' ⊆ m) : KeepsRegs m s u := fun r hr =>
  (h' r fun hm => hr (hl' hm)).trans (h r fun hm => hr (hl hm))

theorem KeepsRegs.mono {l m : List RegIdx} {s t : State} (h : KeepsRegs l s t) (hl : l ⊆ m) :
    KeepsRegs m s t := fun r hr => h r fun hm => hr (hl hm)

theorem keepsRegs_setReg (s : State) (i : RegIdx) (v : Word) : KeepsRegs [i] s (s.setReg i v) :=
  fun _ hr => reg_setReg_ne s v fun e => hr (e ▸ List.mem_singleton_self _)

theorem keepsRegs_advance (s : State) : KeepsRegs [pcIndex] s s.advance := keepsRegs_setReg s pcIndex _

theorem keepsRegs_advance_advance (s : State) : KeepsRegs [pcIndex] s s.advance.advance :=
  (keepsRegs_advance s).trans (keepsRegs_advance _) (List.Subset.refl _) (List.Subset.refl _)

/-- A syscall writes no register but the one its result goes to (rule R112). -/
theorem keepsRegs_syscallForm (d : RegIdx) (q : SyscallArgs) (s : State) :
    KeepsRegs [d] s (syscallForm d q s) := by
  rcases syscallForm_cases d q s with ⟨c, e, -⟩ | ⟨-, e⟩ | ⟨v, e⟩ | ⟨-, -, -, e⟩ | ⟨-, v, c, e⟩ |
    ⟨-, -, v, e⟩ <;> rw [e]
  · exact fun _ _ => rfl
  · exact fun _ _ => rfl
  · exact keepsRegs_setReg s d v
  · exact keepsRegs_setReg (s.setMem _) d _
  · exact keepsRegs_setReg (s.askHost c) d v
  · exact keepsRegs_setReg ((s.askHost _).setMem _) d v

/-- The window is a store, a compare or a jump by the bytes that tell them from every other form. -/
def State.WritesNoResult (s : State) : Prop :=
  s.windowByte 1 = 0x3D ∨ s.windowByte 0 = 0x3F ∨ s.windowByte 0 = 0x4A

theorem not_writesNoResult_of_pair {s : State} {op1 op2 : Byte} (h0 : s.windowByte 0 = op1)
    (h1 : s.windowByte 1 = op2) (h : op2 ≠ 0x3D ∧ op1 ≠ 0x3F ∧ op1 ≠ 0x4A) :
    ¬ s.WritesNoResult := by
  subst h0 h1
  rintro (h' | h' | h')
  · exact h.1 h'
  · exact h.2.1 h'
  · exact h.2.2 h'

/-- A step changes `pc` alone, or `pc` and the register `op3` names by a form that has a result. -/
theorem keepsRegs_of_stepEffect {s t : State} (h : StepEffect s t) :
    KeepsRegs [pcIndex] s t ∨
      (KeepsRegs [s.windowReg 2, pcIndex] s t ∧ ¬ s.WritesNoResult) := by
  have both {u : State} (hu : KeepsRegs [pcIndex] s u) (ht : KeepsRegs [s.windowReg 2] u t) :
      KeepsRegs [s.windowReg 2, pcIndex] s t := hu.trans ht (by simp) (by simp)
  cases h with
  | fetchFault => exact .inl fun _ _ => rfl
  | skip => exact .inl (keepsRegs_advance s)
  | fault => exact .inl (keepsRegs_advance s)
  | write _ _ hp => exact .inr ⟨both (keepsRegs_advance s) (keepsRegs_setReg _ _ _),
      not_writesNoResult_of_pair rfl rfl hp⟩
  | literal _ h0 h1 =>
    refine .inr ⟨both (keepsRegs_advance_advance s) (keepsRegs_setReg _ _ _), ?_⟩
    rcases h1 with h1 | h1 <;> exact not_writesNoResult_of_pair h0 h1 (by decide)
  | badLiteral _ h0 h1 =>
    exact .inr ⟨both (u := s.advance.advance.drawAny) (keepsRegs_advance_advance s)
      (keepsRegs_setReg _ _ _), not_writesNoResult_of_pair h0 h1 (by decide)⟩
  | compare => exact .inl (keepsRegs_advance s)
  | storeByte => exact .inl (keepsRegs_advance s)
  | storeWord => exact .inl (keepsRegs_advance s)
  | jump =>
    exact .inl ((keepsRegs_advance s).trans (keepsRegs_setReg _ _ _) (List.Subset.refl _)
      (List.Subset.refl _))
  | syscall _ _ h0 h1 =>
    refine .inr ⟨both (keepsRegs_advance s) (keepsRegs_syscallForm _ _ _), ?_⟩
    rcases h1 with h1 | h1 <;> exact not_writesNoResult_of_pair h0 h1 (by decide)
  | syscallExt _ h =>
    exact .inr ⟨both (keepsRegs_advance_advance s) (keepsRegs_syscallForm _ _ _),
      not_writesNoResult_of_pair h.1 h.2 (by decide)⟩

/-- Settles O20, by the two ways a step can treat the registers. -/
theorem onlyTheDestinationRegisterChanges : Obligations.OnlyTheDestinationRegisterChanges := by
  intro s t hstep
  rcases keepsRegs_of_stepEffect (step_effect hstep).2 with h | ⟨h, hw⟩
  · exact ⟨h.mono (by simp), fun _ => h⟩
  · exact ⟨h, fun hn => absurd hn hw⟩

/-- No syscall writes the flag (rule R112). -/
theorem flag_syscallForm (d : RegIdx) (q : SyscallArgs) (s : State) :
    (syscallForm d q s).flag = s.flag := by
  rcases syscallForm_cases d q s with ⟨c, e, -⟩ | ⟨-, e⟩ | ⟨v, e⟩ | ⟨-, -, -, e⟩ | ⟨-, v, c, e⟩ |
    ⟨-, -, v, e⟩ <;> rw [e] <;> rfl

/-- Settles O21: of the effects a step can have, only a compare does not leave the flag as it was. -/
theorem onlyComparesChangeTheFlag : Obligations.OnlyComparesChangeTheFlag := by
  intro s t hstep hne
  cases (step_effect hstep).2 with
  | compare _ h0 h1 => exact ⟨h0, h1⟩
  | syscall => exact absurd (flag_syscallForm _ _ _) hne
  | syscallExt => exact absurd (flag_syscallForm _ _ _) hne
  | _ => exact absurd rfl hne

/-! ### The run-state machine -/

/-- Every instruction answers a next state. -/
theorem exec_answers (i : Instr) (s : State) : ∃ t, exec i s = .next t := by
  cases i with
  | ldh a h0 h1 h2 h3 =>
    simp only [exec, execLdh]
    split <;> exact ⟨_, rfl⟩
  | _ => exact ⟨_, rfl⟩

/-- A core that fetches has a step (rule R22). -/
theorem step_answers {s : State} (hr : s.runState = .fetch) : ∃ t, step s = .next t := by
  simp only [step, hr]
  cases fetch s with
  | run i t => exact exec_answers i t
  | done t => exact ⟨t, rfl⟩

/-- The status after a syscall: unchanged, a fatal fault, or the exit of syscall 7 (rules R112, R123). -/
theorem status_syscallForm (d : RegIdx) (q : SyscallArgs) (s : State) :
    KeepsStatus s (syscallForm d q s) ∨
    ((syscallForm d q s).runState = .halted ∧ (syscallForm d q s).faultKind ≠ .none ∧
      (syscallForm d q s).haltCode = Config.fatalExitCode) ∨
    ((syscallForm d q s).runState = .halted ∧ (syscallForm d q s).faultKind = s.faultKind ∧
      q.n = 7) := by
  rcases syscallForm_cases d q s with ⟨c, e, hc⟩ | ⟨hn, e⟩ | ⟨v, e⟩ | ⟨-, -, -, e⟩ | ⟨-, v, c, e⟩ |
    ⟨-, -, v, e⟩ <;> rw [e]
  · exact .inr (.inl ⟨rfl, hc, rfl⟩)
  · exact .inr (.inr ⟨rfl, rfl, hn⟩)
  all_goals exact .inl ⟨rfl, rfl, rfl⟩

/-- `SYS` and a `SYS?` that is not skipped run a syscall (rules R106, R110). -/
theorem runsSyscall_of_not_skips {s : State} (hs : ¬ s.Skips) (h0 : s.windowByte 0 = 0x53)
    (h1 : s.windowByte 1 = 0x20 ∨ s.windowByte 1 = 0x3F) : s.RunsSyscall := by
  refine ⟨h0, h1.imp_right fun h1 => .inr ⟨h1, ?_⟩⟩
  exact Bool.eq_true_of_not_eq_false fun hf => hs ⟨h1, hf⟩

/-- The status after a step. -/
theorem status_of_stepEffect {s t : State} (h : StepEffect s t) :
    KeepsStatus s t ∨
    (t.runState = .halted ∧ t.faultKind ≠ .none ∧ t.haltCode = Config.fatalExitCode) ∨
    (t.runState = .halted ∧ t.faultKind = s.faultKind ∧ s.RunsSyscall ∧
      s.reg (s.windowReg 2) = 7) := by
  cases h with
  | fetchFault => exact .inr (.inl ⟨rfl, by simp [FaultCause.kind], rfl⟩)
  | fault _ _ _ _ c hc => exact .inr (.inl ⟨rfl, hc, rfl⟩)
  | syscall _ hs h0 h1 =>
    rcases status_syscallForm _ _ _ with h | h | ⟨hh, hk, hn⟩
    · exact .inl h
    · exact .inr (.inl h)
    · exact .inr (.inr ⟨hh, hk, runsSyscall_of_not_skips hs h0 h1, hn⟩)
  | syscallExt _ hp =>
    rcases status_syscallForm _ _ _ with h | h | ⟨hh, hk, hn⟩
    · exact .inl h
    · exact .inr (.inl h)
    · exact .inr (.inr ⟨hh, hk, ⟨hp.1, .inr (.inl hp.2)⟩, hn⟩)
  | _ => exact .inl ⟨rfl, rfl, rfl⟩

/-- Settles O15: a fetching core has a step, whose effect fixes the status; `HALTED` has none. -/
theorem runStateMachine : Obligations.RunStateMachine := by
  refine ⟨fun s hr => ?_, fun s hr => by simp only [step, hr]⟩
  obtain ⟨t, hstep⟩ := step_answers hr
  exact ⟨t, hstep, status_of_stepEffect (step_effect hstep).2⟩

/-! ### The canonical form of memory -/

/-- Below every cell a memory reads as 0. -/
theorem Memory.readByte_of_above {m : Memory} {n k : Nat} (h : m.above n) (hk : k < n) :
    m.readByte k = 0 := by
  induction m with
  | nil => rfl
  | cons c rest ih =>
    have hc : n ≤ c.1 := h c List.mem_cons_self
    rw [Memory.readByte, if_neg (by omega), ih fun d hd => h d (List.mem_cons_of_mem _ hd)]

theorem Memory.readByte_cons_self (a : Nat) (v : Byte) (m : Memory) :
    Memory.readByte ((a, v) :: m) a = v := if_pos rfl

theorem Memory.readByte_cons_ne {a k : Nat} (h : k ≠ a) (v : Byte) (m : Memory) :
    Memory.readByte ((a, v) :: m) k = m.readByte k := if_neg h

/-- A canonical memory reads as 0 below its first cell, and not at it: a memory that reads alike has no
first cell further up. -/
theorem Memory.first_cell_le {a b : Nat} {v w : Byte} {m m' : Memory}
    (hm : Memory.wf ((a, v) :: m) = true) (hm' : Memory.wf ((b, w) :: m') = true)
    (h : ∀ k, Memory.readByte ((a, v) :: m) k = Memory.readByte ((b, w) :: m') k) : b ≤ a := by
  obtain ⟨-, hv, -, -⟩ := (Memory.wf_cons_iff a v m).1 hm
  obtain ⟨-, -, habove, -⟩ := (Memory.wf_cons_iff b w m').1 hm'
  by_contra hab
  have hzero : Memory.readByte ((b, w) :: m') a = 0 := by
    rw [Memory.readByte_cons_ne (by omega), Memory.readByte_of_above habove (by omega)]
  exact hv (by rw [← Memory.readByte_cons_self a v m, h, hzero])

/-- A canonical memory that reads as 0 everywhere has no cell. -/
theorem Memory.eq_nil_of_reads_zero {m : Memory} (hm : m.wf = true) (h : ∀ k, m.readByte k = 0) :
    m = [] := by
  cases m with
  | nil => rfl
  | cons c rest =>
    obtain ⟨a, v⟩ := c
    obtain ⟨-, hv, -, -⟩ := (Memory.wf_cons_iff a v rest).1 hm
    exact absurd ((Memory.readByte_cons_self a v rest).symm.trans (h a)) hv

/-- Settles O7, by induction on the two lists: they have the same first cell, so the rests read alike. -/
theorem canonicalMemoriesThatReadAlikeAreEqual :
    Obligations.CanonicalMemoriesThatReadAlikeAreEqual := by
  intro m
  induction m with
  | nil => exact fun m' _ hm' h => (Memory.eq_nil_of_reads_zero hm' fun k => (h k).symm).symm
  | cons c rest ih =>
    intro m' hm hm' h
    obtain ⟨a, v⟩ := c
    cases m' with
    | nil => exact Memory.eq_nil_of_reads_zero hm h
    | cons d rest' =>
      obtain ⟨b, w⟩ := d
      obtain rfl : a = b :=
        Nat.le_antisymm (Memory.first_cell_le hm' hm fun k => (h k).symm) (Memory.first_cell_le hm hm' h)
      obtain rfl : v = w := by
        rw [← Memory.readByte_cons_self a v rest, h, Memory.readByte_cons_self]
      obtain ⟨-, -, habove, hrest⟩ := (Memory.wf_cons_iff a v rest).1 hm
      obtain ⟨-, -, habove', hrest'⟩ := (Memory.wf_cons_iff a v rest').1 hm'
      have hreads (k : Nat) : Memory.readByte rest k = Memory.readByte rest' k := by
        by_cases hk : k = a
        · rw [Memory.readByte_of_above habove (by omega), Memory.readByte_of_above habove' (by omega)]
        · rw [← Memory.readByte_cons_ne hk v rest, h, Memory.readByte_cons_ne hk]
      rw [ih rest' hrest hrest' hreads]

/-! ### The reset event -/

/-- Rule R26 for an empty program image. -/
theorem reg_reset (r : RegIdx) : State.reset.reg r = 0 := by
  simp [State.reg, State.reset, Vector.get_eq_getElem]

/-- Settles O1. -/
theorem resetStateValues : Obligations.ResetStateValues :=
  ⟨reg_reset, rfl, Memory.readByte_nil, rfl, rfl⟩

/-- Settles O3. -/
theorem resetMeetsInvariant : Obligations.ResetMeetsInvariant :=
  ⟨rfl, reg_reset 62, fun _ => rfl, fun hk => absurd rfl hk, fun _ hg => nomatch hg⟩

/-- The state a reset event leaves when the image fits: the core's part is that of `State.reset` but for
memory, and what is no state of the core stays (rules R26, R28). -/
def State.afterReset (s : State) (image : List Byte) : State :=
  { State.reset with
    mem := imageMemory image
    guestArgv := s.guestArgv
    hostAnswers := s.hostAnswers
    hostCalls := s.hostCalls
    anyDraws := s.anyDraws }

theorem resetEvent_eq_some_iff {s t : State} {image : List Byte} :
    s.resetEvent image = some t ↔ image.length ≤ Config.memSize ∧ t = s.afterReset image := by
  simp [State.resetEvent, State.afterReset, eq_comm]

theorem reg_afterReset (s : State) (image : List Byte) (r : RegIdx) :
    (s.afterReset image).reg r = 0 := reg_reset r

/-- Within the image, memory holds the image (rule R26). -/
theorem readByte_imageMemory {image : List Byte} {k : Nat} (h : k < image.length) :
    (imageMemory image).readByte k = image[k] := by
  have := Memory.readByte_writeBytes_inside (m := []) (a := 0) h
  rwa [Nat.zero_add] at this

/-- Past the image, memory is 0 (rule R26). -/
theorem readByte_imageMemory_of_le {image : List Byte} {k : Nat} (h : image.length ≤ k) :
    (imageMemory image).readByte k = 0 :=
  Memory.readByte_writeBytes_outside (m := []) (a := 0) (.inr (by omega))

/-- Settles O2. -/
theorem resetEventEstablishesR26 : Obligations.ResetEventEstablishesR26 := fun s image h =>
  ⟨s.afterReset image, resetEvent_eq_some_iff.2 ⟨h, rfl⟩, reg_afterReset s image, rfl,
    fun _ hk => readByte_imageMemory hk, fun _ hk => readByte_imageMemory_of_le hk, rfl, rfl⟩

/-- Settles O4. -/
theorem resetEventMeetsInvariant : Obligations.ResetEventMeetsInvariant := by
  intro s t image hargv hreset
  obtain ⟨hfits, rfl⟩ := resetEvent_eq_some_iff.1 hreset
  exact ⟨imageMemory_wf hfits, reg_afterReset s image 62, fun _ => rfl, fun hk => absurd rfl hk, hargv⟩

/-- A window of zero bytes is of no row of the opcode map (rule R63). -/
theorem decodeWindow_zero (s : State) :
    decodeWindow 0 0 0 0 s = .done (s.raise (.invalidOpcode 0 0)) := rfl

/-- From a memory without a cell the first window is zero, and the core halts with `INVALID_OPCODE`
(rule R150). -/
theorem step_of_mem_nil {s : State} (hr : s.runState = .fetch) (hm : s.mem = [])
    (hf : s.pc.toNat + 4 ≤ Config.memSize) :
    step s = .next (s.advance.raise (.invalidOpcode 0 0)) := by
  simp only [step_in_bounds hr hf, hm, Memory.readByte_nil, decodeWindow_zero, finish]

/-- A fatal fault past the base advance has changed nothing but the status and `pc` (rules R132, R133). -/
theorem faultsWith_advance_raise (s : State) (c : FaultCause) :
    FaultsWith c.kind [pcIndex] s (s.advance.raise c) :=
  ⟨rfl, rfl, rfl, keepsRegs_advance s, rfl, fun _ => rfl, ⟨rfl, rfl, rfl⟩, rfl⟩

/-- Settles O6. -/
theorem entryPointAndEmptyImage : Obligations.EntryPointAndEmptyImage := by
  intro s t image hreset
  obtain ⟨-, rfl⟩ := resetEvent_eq_some_iff.1 hreset
  have hpc : (s.afterReset image).pc = 0 := reg_afterReset s image pcIndex
  have hwindow (k : Nat) :
      (s.afterReset image).windowByte k = (s.afterReset image).mem.readByte k := by
    rw [State.windowByte, hpc]
    exact congrArg _ (Nat.zero_add k)
  refine ⟨hpc, hwindow, fun k hk => (hwindow k).trans (readByte_imageMemory hk), ?_⟩
  rintro rfl
  refine ⟨_, step_of_mem_nil rfl rfl (by rw [hpc]; decide), ?_,
    faultsWith_advance_raise _ (.invalidOpcode 0 0)⟩
  rw [pc_raise, pc_advance, hpc]
  rfl

/-! ### Decoded instructions -/

/-- A four-byte row builds a well-formed instruction from two registers that can be named. -/
theorem wellFormed_of_mem_shortRows {p : Byte × Byte} {build : RegIdx → RegIdx → Instr}
    (hm : (p, build) ∈ shortRows) {a b : RegIdx} (ha : a.nameable = true) (hb : b.nameable = true) :
    (build a b).wellFormed = true := by
  have hall : ∀ row ∈ shortRows, (row.2 a b).wellFormed = true := by
    simp [shortRows, plainRows, condRows, Instr.wellFormed, Instr.regs, ha, hb]
  exact hall _ hm

/-- So does an eight-byte row, whatever the extension bytes: those of `SYSX` name registers too. -/
theorem wellFormed_of_mem_longRows {p : Byte × Byte}
    {build : RegIdx → RegIdx → Byte → Byte → Byte → Byte → Instr} (hm : (p, build) ∈ longRows)
    {a b : RegIdx} (ha : a.nameable = true) (hb : b.nameable = true) (e0 e1 e2 e3 : Byte) :
    (build a b e0 e1 e2 e3).wellFormed = true := by
  have hall : ∀ row ∈ longRows, (row.2 a b e0 e1 e2 e3).wellFormed = true := by
    simp [longRows, Instr.wellFormed, Instr.regs, ha, hb, regName_nameable]
  exact hall _ hm

/-- Settles O11: a decoded instruction is a row's, built from registers that bytes name. -/
theorem decodedInstructionsAreWellFormed : Obligations.DecodedInstructionsAreWellFormed := by
  intro bytes i h
  match bytes, h with
  | op1 :: op2 :: op3 :: op4 :: rest, h =>
    have ha := regName_nameable op3
    have hb := regName_nameable op4
    rcases decode_ok_cases h with ⟨build, hm, -, rfl⟩ | ⟨build, e0, e1, e2, e3, tail, hm, -, rfl⟩
    · exact wellFormed_of_mem_shortRows hm ha hb
    · exact wellFormed_of_mem_longRows hm ha hb e0 e1 e2 e3

/-! ### Changes of the state that no step sees -/

/-- `u` changes only what no operation of the core reads, and every operation leaves the change in place;
registers other than `x[62]` are all an instruction can name (rule R14). -/
structure Unseen (u : State → State) : Prop where
  reg : ∀ s r, r ≠ 62 → (u s).reg r = s.reg r
  flag : ∀ s, (u s).flag = s.flag
  mem : ∀ s, (u s).mem = s.mem
  runState : ∀ s, (u s).runState = s.runState
  argv : ∀ s, (u s).guestArgv = s.guestArgv
  answer : ∀ s, (u s).nextAnswer = s.nextAnswer
  any32 : ∀ s, (u s).any32 = s.any32
  setReg : ∀ s r v, r ≠ 62 → (u s).setReg r v = u (s.setReg r v)
  setFlag : ∀ s b, (u s).setFlag b = u (s.setFlag b)
  setMem : ∀ s m, (u s).setMem m = u (s.setMem m)
  askHost : ∀ s c, (u s).askHost c = u (s.askHost c)
  drawAny : ∀ s, (u s).drawAny = u s.drawAny
  raise : ∀ s c, (u s).raise c = u (s.raise c)
  halt : ∀ s code, (u s).halt code = u (s.halt code)

/-- What an instruction does to the state and the change `u` commute. -/
def CommutesWith (u form : State → State) : Prop := ∀ s, form (u s) = u (form s)

section
variable {u : State → State} {a b : RegIdx}

theorem Unseen.pc (h : Unseen u) (s : State) : (u s).pc = s.pc := h.reg s pcIndex (by decide)

theorem Unseen.setPc (h : Unseen u) (s : State) (v : Word) : (u s).setPc v = u (s.setPc v) :=
  h.setReg s pcIndex v (by decide)

theorem Unseen.advance (h : Unseen u) (s : State) : (u s).advance = u s.advance := by
  rw [State.advance, h.pc, h.setPc, State.advance]

theorem Unseen.memRead (h : Unseen u) (s : State) (v : Word) (n : Nat) :
    (u s).memRead v n = s.memRead v n := by rw [State.memRead, h.mem, State.memRead]

theorem Unseen.memWrite (h : Unseen u) (s : State) (v : Word) (n : Nat) (w : Word) :
    (u s).memWrite v n w = (s.memWrite v n w).map u := by
  simp only [State.memWrite, h.mem, h.setMem]
  split <;> rfl

theorem Unseen.fetchBytes (h : Unseen u) (s : State) (v : Word) :
    (u s).fetchBytes v = s.fetchBytes v := by rw [State.fetchBytes, h.mem, State.fetchBytes]

/-! #### The shapes of instructions -/

theorem Unseen.aluForm (h : Unseen u) (f : Word → Word → Word) (ha : a ≠ 62) (hb : b ≠ 62) :
    CommutesWith u (aluForm f a b) := fun s => by
  simp only [Machine.aluForm, h.reg s a ha, h.reg s b hb, h.setReg s a _ ha]

theorem Unseen.divForm (h : Unseen u) (ha : a ≠ 62) (hb : b ≠ 62) : CommutesWith u (divForm a b) :=
  fun s => by
    simp only [Machine.divForm, h.reg s a ha, h.reg s b hb, h.pc, h.raise, h.setReg s a _ ha]
    split <;> rfl

theorem Unseen.moveForm (h : Unseen u) (ha : a ≠ 62) (hb : b ≠ 62) : CommutesWith u (moveForm a b) :=
  fun s => by rw [Machine.moveForm, h.reg s b hb, h.setReg s a _ ha, Machine.moveForm]

theorem Unseen.jumpForm (h : Unseen u) (ha : a ≠ 62) : CommutesWith u (jumpForm a) :=
  fun s => by rw [Machine.jumpForm, h.reg s a ha, h.setPc, Machine.jumpForm]

theorem Unseen.loadForm (h : Unseen u) (n : Nat) (ha : a ≠ 62) (hb : b ≠ 62) :
    CommutesWith u (loadForm n a b) := fun s => by
  simp only [Machine.loadForm, h.reg s b hb, h.memRead]
  split
  · exact h.setReg s a _ ha
  · exact h.raise s _

theorem Unseen.storeForm (h : Unseen u) (n : Nat) (ha : a ≠ 62) (hb : b ≠ 62) :
    CommutesWith u (storeForm n a b) := fun s => by
  simp only [Machine.storeForm, h.reg s a ha, h.reg s b hb, h.memWrite]
  cases s.memWrite (s.reg a) n (s.reg b) with
  | some t => rfl
  | none => exact h.raise s _

theorem Unseen.compareForm (h : Unseen u) (rel : Word → Word → Bool) (ha : a ≠ 62) (hb : b ≠ 62) :
    CommutesWith u (compareForm rel a b) := fun s => by
  rw [Machine.compareForm, h.reg s a ha, h.reg s b hb, h.setFlag, Machine.compareForm]

theorem Unseen.whenFlag (h : Unseen u) {form : State → State} (hf : CommutesWith u form) :
    CommutesWith u (whenFlag form) := fun s => by
  simp only [Machine.whenFlag, h.flag, hf s]
  split <;> rfl

/-- A literal is written past the extension bytes. -/
theorem Unseen.literal (h : Unseen u) (v : Word) (ha : a ≠ 62) :
    CommutesWith u fun s => s.advance.setReg a v := fun s => by
  simp only [h.advance, h.setReg _ a v ha]

/-- What `LDH` does where a digit byte is no digit (rule R59). -/
theorem Unseen.badLiteral (h : Unseen u) (ha : a ≠ 62) :
    CommutesWith u fun s => s.advance.drawAny.setReg a s.any32 := fun s => by
  simp only [h.advance, h.drawAny, h.any32, h.setReg _ a _ ha]

/-! #### Syscalls -/

theorem Unseen.pathAt (h : Unseen u) (s : State) (off : Word) : (u s).pathAt off = s.pathAt off := by
  rw [State.pathAt, h.mem, State.pathAt]

theorem Unseen.sysOpen (h : Unseen u) (q : SyscallArgs) (s : State) :
    sysOpen q (u s) = ((sysOpen q s).1, u (sysOpen q s).2) := by
  simp only [Machine.sysOpen, h.pathAt, h.answer, h.askHost]
  split <;> rfl

theorem Unseen.sysRead (h : Unseen u) (q : SyscallArgs) (s : State) :
    sysRead q (u s) = ((sysRead q s).1, u (sysRead q s).2) := by
  simp only [Machine.sysRead, h.mem, h.answer, h.askHost, h.setMem]
  split <;> rfl

theorem Unseen.sysWrite (h : Unseen u) (q : SyscallArgs) (s : State) :
    sysWrite q (u s) = ((sysWrite q s).1, u (sysWrite q s).2) := by
  simp only [Machine.sysWrite, h.mem, h.answer, h.askHost]
  split <;> rfl

theorem Unseen.sysLseek (h : Unseen u) (q : SyscallArgs) (s : State) :
    sysLseek q (u s) = ((sysLseek q s).1, u (sysLseek q s).2) := by
  simp only [Machine.sysLseek, h.answer, h.askHost]

theorem Unseen.sysClose (h : Unseen u) (q : SyscallArgs) (s : State) :
    sysClose q (u s) = ((sysClose q s).1, u (sysClose q s).2) := by
  simp only [Machine.sysClose, h.answer, h.askHost]

theorem Unseen.sysGetargv (h : Unseen u) (q : SyscallArgs) (s : State) :
    sysGetargv q (u s) = ((sysGetargv q s).1, u (sysGetargv q s).2) := by
  simp only [Machine.sysGetargv, h.argv, h.mem, h.setMem]
  split
  · rfl
  · split <;> rfl

/-- The bridge answers the same and leaves the change in place. -/
theorem Unseen.bridge (h : Unseen u) (q : SyscallArgs) (s : State) :
    bridge q (u s) = ((bridge q s).1, u (bridge q s).2) := by
  unfold Machine.bridge
  split
  · exact h.sysOpen q s
  · exact h.sysRead q s
  · exact h.sysWrite q s
  · exact h.sysLseek q s
  · exact h.sysClose q s
  · exact h.sysGetargv q s
  · rfl
  · rfl

theorem Unseen.complete (h : Unseen u) (ha : a ≠ 62) (r : BridgeAnswer) :
    CommutesWith u (complete a r) := fun s => by
  cases r with
  | ret v => exact h.setReg s a v ha
  | halt code => exact h.halt s code
  | fatal c => exact h.raise s c

theorem Unseen.syscallForm (h : Unseen u) (ha : a ≠ 62) (q : SyscallArgs) :
    CommutesWith u (syscallForm a q) := fun s => by
  rw [Machine.syscallForm, h.bridge, h.complete ha, Machine.syscallForm]

/-- `SYS` (rule R110). -/
theorem Unseen.syscall (h : Unseen u) (ha : a ≠ 62) (hb : b ≠ 62) :
    CommutesWith u fun s => Machine.syscallForm a (sysArgs a b s) s := fun s => by
  simp only [sysArgs, h.reg s a ha, h.reg s b hb, h.syscallForm ha _ s]

/-- `SYS?` (rule R106). -/
theorem Unseen.whenFlagSyscall (h : Unseen u) (ha : a ≠ 62) (hb : b ≠ 62) :
    CommutesWith u fun s => Machine.whenFlag (Machine.syscallForm a (sysArgs a b s)) s := fun s => by
  simp only [sysArgs, h.reg s a ha, h.reg s b hb, h.whenFlag (h.syscallForm ha _) s]

/-- `SYSX` (rule R111). -/
theorem Unseen.syscallExt (h : Unseen u) {r2 r3 r4 r5 : RegIdx} (ha : a ≠ 62) (hb : b ≠ 62)
    (h2 : r2 ≠ 62) (h3 : r3 ≠ 62) (h4 : r4 ≠ 62) (h5 : r5 ≠ 62) :
    CommutesWith u fun s => Machine.syscallForm a ⟨s.advance.reg a, s.advance.reg b,
      s.advance.reg r2, s.advance.reg r3, s.advance.reg r4, s.advance.reg r5⟩ s.advance := fun s => by
  simp only [h.advance, h.reg _ a ha, h.reg _ b hb, h.reg _ r2 h2, h.reg _ r3 h3, h.reg _ r4 h4,
    h.reg _ r5 h5, h.syscallForm ha _ s.advance]

/-! #### Instructions and steps -/

/-- The result of a step with the change made to its next state. -/
def mapNext (u : State → State) : Result → Result
  | .next t => .next (u t)
  | .fault r => .fault r
  | .refused r => .refused r

/-- An instruction whose meaning is a form that commutes with the change. -/
theorem exec_of_commutesWith {i : Instr} (form : State → State) (hform : CommutesWith u form)
    (hexec : ∀ s, exec i s = .next (form s)) (s : State) : exec i (u s) = mapNext u (exec i s) := by
  rw [hexec, hexec, hform s, mapNext]

/-- An instruction that does not name `x[62]` runs alike with and without the change. -/
theorem Unseen.exec (h : Unseen u) {i : Instr} (hi : i.wellFormed = true) :
    ∀ s, exec i (u s) = mapNext u (exec i s) := by
  have hr (r : RegIdx) (hm : r ∈ i.regs) : r ≠ 62 := nameable_ne_62 (List.all_eq_true.1 hi r hm)
  cases i with
    simp only [Instr.regs, List.mem_cons, List.not_mem_nil, or_false, forall_eq_or_imp,
      forall_eq, false_imp_iff, implies_true] at hr
  | ldh a h0 h1 h2 h3 =>
    cases hl : hexLit h0 h1 h2 h3 with
    | some v =>
      exact exec_of_commutesWith _ (h.literal v hr) fun s => by simp only [Machine.exec, execLdh, hl]
    | none =>
      exact exec_of_commutesWith _ (h.badLiteral hr) fun s => by simp only [Machine.exec, execLdh, hl]
  | ldi a v => exact exec_of_commutesWith _ (h.literal v hr) fun _ => rfl
  | jmp a => exact exec_of_commutesWith _ (h.jumpForm hr) fun _ => rfl
  | jmpQ a => exact exec_of_commutesWith _ (h.whenFlag (h.jumpForm hr)) fun _ => rfl
  | rsvLd16 | rsvSt16 => exact exec_of_commutesWith _ (fun s => h.raise s _) fun _ => rfl
  | sysx a b r2 r3 r4 r5 =>
    obtain ⟨ha, hb, h2, h3, h4, h5⟩ := hr
    exact exec_of_commutesWith _ (h.syscallExt ha hb h2 h3 h4 h5) fun _ => rfl
  | mov a b => exact exec_of_commutesWith _ (h.moveForm hr.1 hr.2) fun _ => rfl
  | add a b | sub a b | mul a b | and a b | or a b | xor a b | shr a b | shl a b =>
    exact exec_of_commutesWith _ (h.aluForm _ hr.1 hr.2) fun _ => rfl
  | div a b => exact exec_of_commutesWith _ (h.divForm hr.1 hr.2) fun _ => rfl
  | ldb a b | ldw a b => exact exec_of_commutesWith _ (h.loadForm _ hr.1 hr.2) fun _ => rfl
  | stb a b | stw a b => exact exec_of_commutesWith _ (h.storeForm _ hr.1 hr.2) fun _ => rfl
  | ceq a b | cgt a b | clt a b | cne a b =>
    exact exec_of_commutesWith _ (h.compareForm _ hr.1 hr.2) fun _ => rfl
  | sys a b => exact exec_of_commutesWith _ (h.syscall hr.1 hr.2) fun _ => rfl
  | movQ a b => exact exec_of_commutesWith _ (h.whenFlag (h.moveForm hr.1 hr.2)) fun _ => rfl
  | addQ a b | subQ a b | mulQ a b | andQ a b | orQ a b | xorQ a b | shrQ a b | shlQ a b =>
    exact exec_of_commutesWith _ (h.whenFlag (h.aluForm _ hr.1 hr.2)) fun _ => rfl
  | divQ a b => exact exec_of_commutesWith _ (h.whenFlag (h.divForm hr.1 hr.2)) fun _ => rfl
  | sysQ a b => exact exec_of_commutesWith _ (h.whenFlagSyscall hr.1 hr.2) fun _ => rfl

/-- What a fetch ends in, with the change made to its state. -/
def Fetched.map (u : State → State) : Fetched → Fetched
  | .run i t => .run i (u t)
  | .done t => .done (u t)

theorem Unseen.dispatchBytes (h : Unseen u) (op1 op2 : Byte) (bytes : List Byte) (s : State) :
    dispatchBytes op1 op2 bytes (u s) = (dispatchBytes op1 op2 bytes s).map u := by
  simp only [Machine.dispatchBytes, h.raise]
  split <;> rfl

theorem Unseen.decodeWindow (h : Unseen u) (op1 op2 op3 op4 : Byte) (s : State) :
    decodeWindow op1 op2 op3 op4 (u s) = (decodeWindow op1 op2 op3 op4 s).map u := by
  simp only [Machine.decodeWindow, h.flag, h.pc, h.fetchBytes, h.dispatchBytes, h.raise]
  split
  · rfl
  · split
    · split <;> rfl
    · rfl

theorem Unseen.fetch (h : Unseen u) (s : State) : fetch (u s) = (fetch s).map u := by
  simp only [Machine.fetch, h.pc, h.fetchBytes, h.advance, h.decodeWindow, h.raise]
  split <;> rfl

/-- A fetch ends in no instruction but a decoded one, which names no `x[62]` (rule R14). -/
theorem wellFormed_of_fetch {s t : State} {i : Instr} (h : Machine.fetch s = .run i t) :
    i.wellFormed = true := by
  unfold Machine.fetch at h
  split at h
  · rename_i op1 op2 op3 op4 _
    rcases decodeWindow_cases op1 op2 op3 op4 s.advance with
      ⟨-, -, e⟩ | ⟨-, ⟨-, -, e⟩ | ⟨-, -, e⟩ | ⟨j, rest, hj, -, e⟩⟩ <;> rw [e] at h
    · cases h
    · cases h
    · cases h
    · obtain ⟨rfl, -⟩ := Fetched.run.inj h
      exact decodedInstructionsAreWellFormed _ _ hj
  · cases h

/-- A step does not see the change and leaves it in place. -/
theorem Unseen.step (h : Unseen u) (s : State) : step (u s) = mapNext u (step s) := by
  simp only [Machine.step, h.runState]
  split
  · rfl
  · rw [h.fetch]
    cases hf : Machine.fetch s with
    | run i t => exact h.exec (wellFormed_of_fetch hf) t
    | done t => rfl

end

/-- Writes to two registers commute. -/
theorem setReg_comm (s : State) {i j : RegIdx} (hij : i ≠ j) (v w : Word) :
    (s.setReg i v).setReg j w = (s.setReg j w).setReg i v := by
  have hx : (s.x.set i v).set j w = (s.x.set j w).set i v :=
    Vector.set_comm v w fun e => hij (Fin.ext e)
  simp only [State.setReg, hx]

/-- No operation of the core sees a write to `x[62]` (rule R14). -/
theorem unseen_setReg_62 (v : Word) : Unseen fun s => s.setReg 62 v where
  reg s _ hr := reg_setReg_ne s v hr
  setReg s _ w hr := setReg_comm s hr.symm v w
  flag _ := rfl
  mem _ := rfl
  runState _ := rfl
  argv _ := rfl
  answer _ := rfl
  any32 _ := rfl
  setFlag _ _ := rfl
  setMem _ _ := rfl
  askHost _ _ := rfl
  drawAny _ := rfl
  raise _ _ := rfl
  halt _ _ := rfl

/-- Settles O25: a write to `x[62]` is a change no step sees. -/
theorem register62IsInvisible : Obligations.Register62IsInvisible := by
  intro s t v hstep
  have h := (unseen_setReg_62 v).step s
  rwa [hstep] at h

/-- The state with another `halt_code`, if it has not halted (rule R22). -/
def State.withHaltCode (c : Word) (s : State) : State :=
  { s with haltCode := if s.runState = .halted then s.haltCode else c }

theorem withHaltCode_eq_ite (c : Word) (s : State) :
    s.withHaltCode c = if s.runState = .halted then s else { s with haltCode := c } := by
  unfold State.withHaltCode
  split <;> rfl

/-- No operation of the core sees the `halt_code` of a running core, and `raise` and `halt` overwrite it
(rules R132, R136). -/
theorem unseen_withHaltCode (c : Word) : Unseen (State.withHaltCode c) where
  reg _ _ _ := rfl
  flag _ := rfl
  mem _ := rfl
  runState _ := rfl
  argv _ := rfl
  answer _ := rfl
  any32 _ := rfl
  setReg _ _ _ _ := rfl
  setFlag _ _ := rfl
  setMem _ _ := rfl
  askHost _ _ := rfl
  drawAny _ := rfl
  raise _ _ := rfl
  halt _ _ := rfl

/-- Settles O26: another `halt_code` in a running core is a change no step sees. -/
theorem haltCodeIsNeverRead : Obligations.HaltCodeIsNeverRead := by
  intro s t c hstep
  have hr := (step_effect hstep).1
  have hs : { s with haltCode := c } = s.withHaltCode c := by
    rw [withHaltCode_eq_ite, if_neg (by rw [hr]; decide)]
  rw [hs, (unseen_withHaltCode c).step s, hstep, mapNext, withHaltCode_eq_ite]

end Sys2Proof.Machine
end

section
/-! PROOFS. The family `20_memory`: what a step can do to memory, faults that leave it alone, stores read
back by loads and by the fetch, and the block `getargv` writes. -/

namespace Sys2Proof.Machine

/-! ### Words and their bytes -/

/-- The low `n` bytes of a word spell it modulo `256 ^ n` (rules R31, R34). -/
theorem leNat_leBytes (n : Nat) (v : Word) : leNat (leBytes n v) = v.toNat % 256 ^ n := by
  induction n generalizing v with
  | zero => simp [leBytes, leNat, Nat.mod_one]
  | succ n ih =>
    have hshift : (v >>> 8).toNat = v.toNat / 256 := by
      rw [BitVec.toNat_ushiftRight, Nat.shiftRight_eq_div_pow]
    rw [leBytes, leNat, ih, hshift, Nat.pow_succ', Nat.mod_mul, BitVec.toNat_setWidth]

/-- All four bytes of a word spell it. -/
theorem leNat_leBytes_four (v : Word) : leNat (leBytes 4 v) = v.toNat := by
  rw [leNat_leBytes]
  exact Nat.mod_eq_of_lt v.isLt

/-- Byte `k` of a word (rule R31). -/
theorem getElem_leBytes (n : Nat) (v : Word) (k : Nat) (h : k < (leBytes n v).length) :
    (leBytes n v)[k] = (v >>> (8 * k)).setWidth 8 := by
  induction n generalizing v k with
  | zero => exact absurd h (Nat.not_lt_zero k)
  | succ n ih =>
    cases k with
    | zero => simp [leBytes]
    | succ k =>
      have hk : k < (leBytes n (v >>> 8)).length := by simpa [leBytes] using h
      calc (leBytes (n + 1) v)[k + 1] = (leBytes n (v >>> 8))[k] := rfl
        _ = ((v >>> 8) >>> (8 * k)).setWidth 8 := ih _ k hk
        _ = (v >>> (8 * (k + 1))).setWidth 8 := by
          rw [← BitVec.shiftRight_add, Nat.mul_succ, Nat.add_comm]

theorem leNat_four (b0 b1 b2 b3 : Byte) : leNat [b0, b1, b2, b3] = word4 b0 b1 b2 b3 := by
  simp only [leNat, word4]
  omega

/-- Four bytes spell a number that fits in a word. -/
theorem word4_lt (b0 b1 b2 b3 : Byte) : word4 b0 b1 b2 b3 < 2 ^ 32 := by
  have h0 := b0.isLt
  have h1 := b1.isLt
  have h2 := b2.isLt
  have h3 := b3.isLt
  unfold word4
  omega

/-- The word at an address is the number its four bytes spell (rule R33). -/
theorem Memory.word_eq_leNat (m : Memory) (a : Nat) : m.word a = leNat (m.readBytes a 4) := by
  rw [Memory.readBytes_four, leNat_four, Memory.word]

/-- A byte taken from a word, widened again: the word's low eight bits. -/
theorem ofNat_leNat_setWidth (v : Word) :
    BitVec.ofNat 32 (leNat [v.setWidth 8]) = v &&& 0xFF := by
  refine BitVec.eq_of_toNat_eq ?_
  have hand : (v &&& 0xFF).toNat = v.toNat % 2 ^ 8 := by
    rw [BitVec.toNat_and]
    exact Nat.and_two_pow_sub_one_eq_mod v.toNat 8
  rw [hand]
  simp only [leNat, BitVec.toNat_setWidth, BitVec.toNat_ofNat]
  omega

/-! ### Bytes that stand in memory -/

/-- The bytes stand in memory from `a` up. -/
def Memory.Holds (m : Memory) (a : Nat) (bs : List Byte) : Prop := m.readBytes a bs.length = bs

theorem Memory.Holds.readByte {m : Memory} {a : Nat} {bs : List Byte} (h : m.Holds a bs) {k : Nat}
    (hk : k < bs.length) : m.readByte (a + k) = bs[k] := by
  rw [← Memory.getElem_readBytes m a bs.length k (by simpa using hk)]
  exact List.getElem_of_eq h _

/-- Bytes just written stand where they were written (rule R34). -/
theorem Memory.holds_writeBytes (m : Memory) (a : Nat) (bs : List Byte) :
    (m.writeBytes a bs).Holds a bs := by
  refine List.ext_getElem (by simp) fun k _ hk => ?_
  rw [Memory.getElem_readBytes, Memory.readByte_writeBytes_inside hk]

theorem Memory.readBytes_add (m : Memory) (a n k : Nat) :
    m.readBytes a (n + k) = m.readBytes a n ++ m.readBytes (a + n) k := by
  induction n generalizing a with
  | zero => simp [Memory.readBytes]
  | succ n ih =>
    rw [Nat.succ_add, Memory.readBytes, ih, Memory.readBytes, List.cons_append, Nat.succ_add_eq_add_succ]

theorem Memory.holds_append {m : Memory} {a : Nat} {bs cs : List Byte} :
    m.Holds a (bs ++ cs) ↔ m.Holds a bs ∧ m.Holds (a + bs.length) cs := by
  rw [Memory.Holds, List.length_append, Memory.readBytes_add]
  exact ⟨fun h => List.append_inj h (by simp), fun ⟨hbs, hcs⟩ => congrArg₂ _ hbs hcs⟩

theorem Memory.Holds.word {m : Memory} {a : Nat} {v : Word} (h : m.Holds a (leBytes 4 v)) :
    m.word a = v.toNat := by
  rw [Memory.Holds, length_leBytes] at h
  rw [Memory.word_eq_leNat, h, leNat_leBytes_four]

theorem Memory.writeBytes_append (m : Memory) (a : Nat) (bs cs : List Byte) :
    m.writeBytes a (bs ++ cs) = (m.writeBytes a bs).writeBytes (a + bs.length) cs := by
  induction bs generalizing m a with
  | nil => rfl
  | cons b bs ih =>
    rw [List.cons_append, Memory.writeBytes, ih, Memory.writeBytes, List.length_cons,
      Nat.succ_add_eq_add_succ]

/-- An address whose byte a write changes is one of those written. -/
theorem Memory.mem_range_of_readByte_writeBytes_ne {m : Memory} {a k : Nat} {bs : List Byte}
    (h : (m.writeBytes a bs).readByte k ≠ m.readByte k) : a ≤ k ∧ k < a + bs.length := by
  by_contra hk
  exact h (Memory.readByte_writeBytes_outside (by omega))

/-! ### What a step does to memory -/

/-- The block `getargv` writes is never empty: it holds the sentinel at least (rule R122). -/
theorem argvRequired_pos (argv : List (List Byte)) : 0 < argvRequired argv := by
  unfold argvRequired
  omega

/-- A byte that a syscall changes lies in the window of a `read` or in the block of a `getargv`, and in
memory (rules R118, R122). -/
theorem changed_by_syscallForm {d : RegIdx} {q : SyscallArgs} {s : State} {k : Nat}
    (h : (syscallForm d q s).mem.readByte k ≠ s.mem.readByte k) :
    k < Config.memSize ∧
    ((q.n = 1 ∧ q.a2.toNat ≤ k ∧ k < q.a2.toNat + q.a3.toNat) ∨
     (q.n = 5 ∧ argvRequired s.guestArgv ≤ q.a2.toNat ∧ q.a1.toNat ≤ k ∧
        k < q.a1.toNat + argvRequired s.guestArgv)) := by
  rcases syscallForm_cases d q s with ⟨c, e, -⟩ | ⟨-, e⟩ | ⟨v, e⟩ | ⟨hn, ha, hb, e⟩ | ⟨-, v, c, e⟩ |
    ⟨hn, hb, v, e⟩ <;> rw [e] at h
  · exact absurd rfl h
  · exact absurd rfl h
  · exact absurd rfl h
  · obtain ⟨hlo, hhi⟩ := Memory.mem_range_of_readByte_writeBytes_ne h
    rw [length_argvBlock] at hhi
    exact ⟨by omega, .inr ⟨hn, ha, hlo, hhi⟩⟩
  · exact absurd rfl h
  · obtain ⟨hlo, hhi⟩ := Memory.mem_range_of_readByte_writeBytes_ne h
    have hlen := length_readData_le s.nextAnswer q.a3
    exact ⟨by omega, .inl ⟨hn, hlo, by omega⟩⟩

/-- A two-value syscall changes no byte: its window and its capacity are empty (rule R110). -/
theorem readByte_syscallForm_two (d : RegIdx) (n a1 : Word) (s : State) (k : Nat) :
    (syscallForm d ⟨n, a1, 0, 0, 0, 0⟩ s).mem.readByte k = s.mem.readByte k := by
  by_contra h
  obtain ⟨-, ⟨-, -, hhi⟩ | ⟨-, hcap, -, -⟩⟩ := changed_by_syscallForm h
  · exact absurd (show k < 0 from hhi) (Nat.not_lt_zero k)
  · exact absurd (show argvRequired s.guestArgv ≤ 0 from hcap) (Nat.not_le.2 (argvRequired_pos _))

/-- Settles O22: of the effects a step can have, only the two stores and a syscall with six values leave
another memory. -/
theorem onlyStoresAndSyscallsChangeMemory : Obligations.OnlyStoresAndSyscallsChangeMemory := by
  intro s t k hstep hne
  cases (step_effect hstep).2 with
  | storeByte _ hp hb =>
    obtain ⟨hlo, hhi⟩ := Memory.mem_range_of_readByte_writeBytes_ne hne
    rw [length_leBytes] at hhi
    exact ⟨by omega, .inl ⟨hp, by rw [← State.windowReg]; omega⟩⟩
  | storeWord _ hp hb =>
    obtain ⟨hlo, hhi⟩ := Memory.mem_range_of_readByte_writeBytes_ne hne
    rw [length_leBytes] at hhi
    exact ⟨by omega, .inr (.inl ⟨hp, hlo, hhi⟩)⟩
  | syscall => exact absurd (readByte_syscallForm_two _ _ _ _ _) hne
  | syscallExt _ hp =>
    obtain ⟨hk, ⟨hn, hlo, hhi⟩ | ⟨hn, -, hlo, hhi⟩⟩ := changed_by_syscallForm hne
    · exact ⟨hk, .inr (.inr (.inl ⟨hp, hn, hlo, hhi⟩))⟩
    · exact ⟨hk, .inr (.inr (.inr ⟨hp, hn, hlo, hhi⟩))⟩
  | _ => exact absurd rfl hne

/-! ### Precise faults -/

theorem OnlyRegs.refl (l : List RegIdx) (s : State) : OnlyRegs l s s :=
  ⟨fun _ _ => rfl, rfl, fun _ => rfl, ⟨rfl, rfl, rfl⟩, ⟨rfl, rfl, rfl⟩, rfl⟩

/-- The base advance changes `pc` alone (rule R53). -/
theorem onlyRegs_advance (s : State) : OnlyRegs [pcIndex] s s.advance :=
  ⟨keepsRegs_advance s, rfl, fun _ => rfl, ⟨rfl, rfl, rfl⟩, ⟨rfl, rfl, rfl⟩, rfl⟩

/-- So do the base advance and the extension advance together (rule R18). -/
theorem onlyRegs_advance_advance (s : State) : OnlyRegs [pcIndex] s s.advance.advance :=
  ⟨keepsRegs_advance_advance s, rfl, fun _ => rfl, ⟨rfl, rfl, rfl⟩, ⟨rfl, rfl, rfl⟩, rfl⟩

/-- A fatal fault after nothing but writes to registers (rule R132). -/
theorem OnlyRegs.faultsWith_raise {l : List RegIdx} {s u : State} (h : OnlyRegs l s u)
    (c : FaultCause) : FaultsWith c.kind l s (u.raise c) :=
  ⟨rfl, rfl, rfl, h.regs, h.flag, h.mem, h.host, h.draws⟩

/-- A syscall records no fault, or does nothing but fault (rule R113). -/
theorem faultKind_syscallForm (d : RegIdx) (q : SyscallArgs) (s : State) :
    (syscallForm d q s).faultKind = s.faultKind ∨ ∃ c, syscallForm d q s = s.raise c := by
  rcases syscallForm_cases d q s with ⟨c, e, -⟩ | ⟨-, e⟩ | ⟨v, e⟩ | ⟨-, -, -, e⟩ | ⟨-, v, c, e⟩ |
    ⟨-, -, v, e⟩
  · exact .inr ⟨c, e⟩
  all_goals exact .inl (by rw [e]; rfl)

/-- A syscall made after nothing but writes to registers records no fault, or is a fault that has changed
nothing else. -/
theorem OnlyRegs.faultsWith_syscallForm {l : List RegIdx} {s u : State} (h : OnlyRegs l s u)
    (d : RegIdx) (q : SyscallArgs) :
    (syscallForm d q u).faultKind = s.faultKind ∨
      FaultsWith (syscallForm d q u).faultKind l s (syscallForm d q u) := by
  obtain ⟨-, hkind, -⟩ := h.status
  rcases faultKind_syscallForm d q u with e | ⟨c, e⟩
  · exact .inl (e.trans hkind)
  · rw [e]
    exact .inr (h.faultsWith_raise c)

/-- A step records no fault, or is a fault that has changed nothing but the status and `pc`. -/
theorem faultsWith_of_stepEffect {s t : State} (h : StepEffect s t) :
    t.faultKind = s.faultKind ∨ FaultsWith t.faultKind [pcIndex] s t := by
  cases h with
  | fetchFault => exact .inr ((OnlyRegs.refl _ s).faultsWith_raise (.outOfBounds s.pc))
  | fault => exact .inr (faultsWith_advance_raise s _)
  | syscall => exact (onlyRegs_advance s).faultsWith_syscallForm _ _
  | syscallExt => exact (onlyRegs_advance_advance s).faultsWith_syscallForm _ _
  | _ => exact .inl rfl

/-- Settles O24: a step that did not keep `fault_kind` is a precise fault. -/
theorem faultsArePrecise : Obligations.FaultsArePrecise := by
  intro s t hnone hstep hfault
  rcases faultsWith_of_stepEffect (step_effect hstep).2 with h | h
  · exact absurd (h.trans hnone) hfault
  · exact h

/-- Settles O16: the fetch faults before the base advance. -/
theorem fetchOutOfBoundsHaltsInPlace : Obligations.FetchOutOfBoundsHaltsInPlace := by
  intro s hr h
  exact ⟨_, step_fetch_out_of_bounds hr h, (OnlyRegs.refl [] s).faultsWith_raise (.outOfBounds s.pc)⟩

/-! ### Loads and stores -/

/-- A store that fits changes memory alone (rule R34). -/
theorem storeForm_of_fits {n : Nat} {a b : RegIdx} {s : State}
    (h : (s.reg a).toNat + n ≤ Config.memSize) :
    storeForm n a b s = s.setMem (s.mem.writeBytes (s.reg a).toNat (leBytes n (s.reg b))) := by
  simp only [storeForm, memWrite_eq_some.2 ⟨h, rfl⟩]

theorem storeForm_of_not_fits {n : Nat} {a b : RegIdx} {s : State}
    (h : Config.memSize < (s.reg a).toNat + n) :
    storeForm n a b s = s.raise (.outOfBounds (s.reg a)) := by
  simp only [storeForm, memWrite_eq_none.2 h]

/-- A load that fits writes the number its bytes spell (rule R33). -/
theorem loadForm_of_fits {n : Nat} {a b : RegIdx} {s : State}
    (h : (s.reg b).toNat + n ≤ Config.memSize) :
    loadForm n a b s = s.setReg a (BitVec.ofNat 32 (leNat (s.mem.readBytes (s.reg b).toNat n))) := by
  simp only [loadForm, memRead_eq_some.2 ⟨h, rfl⟩]

/-- `STB` of a byte that fits (rule R78). -/
theorem exec_stb_of_fits {a b : RegIdx} {s : State} (h : (s.reg a).toNat + 1 ≤ Config.memSize) :
    exec (.stb a b) s =
      .next (s.setMem (s.mem.writeByte (s.reg a).toNat ((s.reg b).setWidth 8))) :=
  congrArg Host.Outcome.next (storeForm_of_fits h)

/-- `STW` of a word that fits (rule R79). -/
theorem exec_stw_of_fits {a b : RegIdx} {s : State} (h : (s.reg a).toNat + 4 ≤ Config.memSize) :
    exec (.stw a b) s =
      .next (s.setMem (s.mem.writeBytes (s.reg a).toNat (leBytes 4 (s.reg b)))) :=
  congrArg Host.Outcome.next (storeForm_of_fits h)

/-- `STW` of a word that does not fit (rules R34, R79). -/
theorem exec_stw_of_not_fits {a b : RegIdx} {s : State}
    (h : Config.memSize < (s.reg a).toNat + 4) :
    exec (.stw a b) s = .next (s.raise (.outOfBounds (s.reg a))) :=
  congrArg Host.Outcome.next (storeForm_of_not_fits h)

/-- `LDB` of a byte that fits (rule R76). -/
theorem exec_ldb_of_fits {a b : RegIdx} {s : State} (h : (s.reg b).toNat + 1 ≤ Config.memSize) :
    exec (.ldb a b) s =
      .next (s.setReg a (BitVec.ofNat 32 (leNat [s.mem.readByte (s.reg b).toNat]))) :=
  congrArg Host.Outcome.next (loadForm_of_fits h)

/-- `LDW` of a word that fits (rule R77). -/
theorem exec_ldw_of_fits {a b : RegIdx} {s : State} (h : (s.reg b).toNat + 4 ≤ Config.memSize) :
    exec (.ldw a b) s =
      .next (s.setReg a (BitVec.ofNat 32 (s.mem.word (s.reg b).toNat))) := by
  rw [Memory.word_eq_leNat]
  exact congrArg Host.Outcome.next (loadForm_of_fits h)

/-- Settles O35: the four bytes stored stand at the address, so the word there is the word stored. -/
theorem storeThenLoadReturnsTheWord : Obligations.StoreThenLoadReturnsTheWord := by
  refine fun a b c s => ⟨fun h => ?_, fun h => ?_⟩
  · have hword := (Memory.holds_writeBytes s.mem (s.reg a).toNat (leBytes 4 (s.reg b))).word
    refine ⟨_, _, exec_stw_of_fits h, exec_ldw_of_fits h, ?_⟩
    rw [reg_setReg_same, setMem_mem, reg_setMem, hword, BitVec.ofNat_toNat, BitVec.setWidth_eq]
  · exact ⟨_, exec_stw_of_not_fits h, rfl, rfl⟩

/-- `LDB` at byte `k` of a word just stored (rule R32). -/
theorem ldb_after_stw {a b c d : RegIdx} {s t : State} {k : Nat} (hk : k < 4)
    (hfits : (s.reg a).toNat + 4 ≤ Config.memSize) (hstw : exec (.stw a b) s = .next t)
    (hd : (s.reg d).toNat = (s.reg a).toNat + k) :
    ∃ u, exec (.ldb c d) t = .next u ∧ u.reg c = ((s.reg b) >>> (8 * k)) &&& 0xFF := by
  obtain rfl := Host.Outcome.next.inj ((exec_stw_of_fits hfits).symm.trans hstw)
  have hbyte := (Memory.holds_writeBytes s.mem (s.reg a).toNat (leBytes 4 (s.reg b))).readByte
    (k := k) (by rwa [length_leBytes])
  refine ⟨_, exec_ldb_of_fits (by rw [reg_setMem]; omega), ?_⟩
  rw [reg_setReg_same, setMem_mem, reg_setMem, hd, hbyte, getElem_leBytes, ofNat_leNat_setWidth]

/-- From `s` to `t` nothing was done to registers, and the bytes were written to memory from `p` up. -/
structure WroteBytes (p : Nat) (bs : List Byte) (s t : State) : Prop where
  regs : KeepsRegs [] s t
  mem : t.mem = s.mem.writeBytes p bs

theorem WroteBytes.nil (p : Nat) (s : State) : WroteBytes p [] s s := ⟨fun _ _ => rfl, rfl⟩

/-- One more `STB`, directly after the bytes written so far (rule R78). -/
theorem WroteBytes.stb {p : Nat} {bs : List Byte} {s t u : State} {a b : RegIdx}
    {n : Nat} (h : WroteBytes p bs s t) (ha : (s.reg a).toNat = p + n) (hn : bs.length = n)
    (hfits : p + n + 1 ≤ Config.memSize) (hexec : exec (.stb a b) t = .next u) :
    WroteBytes p (bs ++ [(s.reg b).setWidth 8]) s u := by
  have hreg (r : RegIdx) : t.reg r = s.reg r := h.regs r List.not_mem_nil
  rw [exec_stb_of_fits (by rw [hreg]; omega), hreg, hreg, ha] at hexec
  obtain rfl := Host.Outcome.next.inj hexec
  refine ⟨h.regs, ?_⟩
  rw [setMem_mem, h.mem, Memory.writeBytes_append, hn]
  rfl

theorem WroteBytes.word {p : Nat} {c0 c1 c2 c3 : Byte} {s t : State}
    (h : WroteBytes p [c0, c1, c2, c3] s t) : t.mem.word p = word4 c0 c1 c2 c3 := by
  have hbytes : t.mem.Holds p [c0, c1, c2, c3] := h.mem ▸ Memory.holds_writeBytes s.mem p _
  rw [Memory.word_eq_leNat, ← leNat_four]
  exact congrArg leNat hbytes

/-- `LDW` over four bytes stored one by one (rule R32). -/
theorem ldw_after_four_stb {a0 a1 a2 a3 b0 b1 b2 b3 c : RegIdx} {s t0 t1 t2 t3 : State}
    (hfits : (s.reg a0).toNat + 4 ≤ Config.memSize)
    (h1 : (s.reg a1).toNat = (s.reg a0).toNat + 1) (h2 : (s.reg a2).toNat = (s.reg a0).toNat + 2)
    (h3 : (s.reg a3).toNat = (s.reg a0).toNat + 3)
    (hstb0 : exec (.stb a0 b0) s = .next t0) (hstb1 : exec (.stb a1 b1) t0 = .next t1)
    (hstb2 : exec (.stb a2 b2) t1 = .next t2) (hstb3 : exec (.stb a3 b3) t2 = .next t3) :
    ∃ u, exec (.ldw c a0) t3 = .next u ∧
      (u.reg c).toNat = word4 ((s.reg b0).setWidth 8) ((s.reg b1).setWidth 8)
        ((s.reg b2).setWidth 8) ((s.reg b3).setWidth 8) := by
  have hw0 := (WroteBytes.nil (s.reg a0).toNat s).stb (n := 0) rfl rfl (by omega) hstb0
  have hw1 := hw0.stb h1 rfl (by omega) hstb1
  have hw2 := hw1.stb h2 rfl (by omega) hstb2
  have hw3 := hw2.stb h3 rfl (by omega) hstb3
  have hword := WroteBytes.word hw3
  have ha0 : t3.reg a0 = s.reg a0 := hw3.regs a0 List.not_mem_nil
  refine ⟨_, exec_ldw_of_fits (by rwa [ha0]), ?_⟩
  rw [reg_setReg_same, ha0, hword, BitVec.toNat_ofNat, Nat.mod_eq_of_lt (word4_lt _ _ _ _)]

/-- Settles O36. -/
theorem mixedWidthsSeePlainBytes : Obligations.MixedWidthsSeePlainBytes :=
  ⟨fun _ _ _ _ _ _ _ => ldb_after_stw,
    fun _ _ _ _ _ _ _ _ _ _ _ _ _ _ => ldw_after_four_stb⟩

/-! ### A store into the next window -/

/-- A four-byte form that decodes and is not skipped runs past the base advance (rules R52, R54). -/
theorem step_of_decode_short {s : State} {i : Instr} (hc : s.CanFetch) (hs : ¬ s.Skips)
    (hx : hasExtension (s.windowByte 0) (s.windowByte 1) = false)
    (hd : decode [s.windowByte 0, s.windowByte 1, s.windowByte 2, s.windowByte 3] = .ok i) :
    step s = exec i s.advance := by
  obtain ⟨hr, hf⟩ := hc
  have hrun : decodeWindow (s.windowByte 0) (s.windowByte 1) (s.windowByte 2) (s.windowByte 3)
      s.advance = .run i s.advance := by
    have hns : ¬ (s.windowByte 1 = condMarker ∧ s.advance.flag = false) := hs
    rw [decodeWindow, if_neg hns, hx, if_neg Bool.false_ne_true, dispatchBytes, hd]
  exact (step_in_bounds hr hf).trans (congrArg finish hrun)

theorem spells_stb : Spells 0x5B 0x3D .stb := fun _ _ _ => rfl

/-- A step at the window of `STB` runs it. -/
theorem step_of_stb {s : State} (hc : s.CanFetch) (hp : s.HasPair 0x5B 0x3D) :
    step s = exec (.stb (s.windowReg 2) (s.windowReg 3)) s.advance := by
  obtain ⟨h0, h1⟩ := hp
  refine step_of_decode_short hc (fun hs => absurd (h1.symm.trans hs.1) (by decide)) ?_ ?_
  · rw [h0, h1]
    rfl
  · rw [h0, h1]
    exact spells_stb _ _ []

/-- Settles O27: after the step the window is four bytes on, and memory there is what it was but for the
byte stored. -/
theorem storeIsSeenByTheNextFetch : Obligations.StoreIsSeenByTheNextFetch := by
  intro s j hc hp hj hfits haddr
  obtain ⟨hr, hf⟩ := hc
  change (s.reg (s.windowReg 2)).toNat = s.pc.toNat + 4 + j at haddr
  have hstep := step_of_stb ⟨hr, hf⟩ hp
  rw [exec_stb_of_fits (by rw [reg_advance_windowReg]; omega), reg_advance_windowReg,
    reg_advance_windowReg, haddr] at hstep
  have hpc := toNat_pc_add_four hf
  refine ⟨_, hstep, ⟨hr, ?_⟩, ?_, fun k hk _ => ?_⟩
  · rw [pc_setMem, pc_advance, hpc]
    omega
  · rw [State.windowByte, pc_setMem, pc_advance, hpc, setMem_mem, Memory.readByte_writeByte,
      if_pos rfl]
    rfl
  · rw [State.windowByte, pc_setMem, pc_advance, hpc, setMem_mem, Memory.readByte_writeByte,
      if_neg (by omega), advance_mem, State.windowByte, Nat.add_assoc]

/-! ### The block `getargv` writes -/

/-- The bytes the strings before string `j` take, their terminators included (rule R122). -/
def argvBefore (argv : List (List Byte)) (j : Nat) : Nat :=
  ((argv.take j).map fun g => g.length + 1).sum

@[simp] theorem argvBefore_zero (argv : List (List Byte)) : argvBefore argv 0 = 0 := rfl

@[simp] theorem argvBefore_cons_succ (g : List Byte) (gs : List (List Byte)) (j : Nat) :
    argvBefore (g :: gs) (j + 1) = g.length + 1 + argvBefore gs j := rfl

/-- No string begins past the block. -/
theorem argvBefore_le (argv : List (List Byte)) (j : Nat) :
    4 * (argv.length + 1) + argvBefore argv j ≤ argvRequired argv := by
  have hsplit := List.sum_take_add_sum_drop (argv.map fun g => g.length + 1) j
  rw [← List.map_take] at hsplit
  unfold argvBefore argvRequired
  omega

/-- Where the offset array stands, its words are the addresses of the strings and the sentinel. -/
theorem Memory.Holds.word_argvOffsets {m : Memory} {a start : Nat} {argv : List (List Byte)}
    (h : m.Holds a (argvOffsets start argv)) :
    m.word (a + 4 * argv.length) = 0 ∧
    ∀ j < argv.length, m.word (a + 4 * j) = (start + argvBefore argv j) % 2 ^ 32 := by
  induction argv generalizing a start with
  | nil => exact ⟨h.word, fun j hj => absurd hj (Nat.not_lt_zero j)⟩
  | cons g gs ih =>
    obtain ⟨hfirst, hrest⟩ := Memory.holds_append.1 h
    rw [length_leBytes] at hrest
    obtain ⟨hsentinel, hwords⟩ := ih hrest
    have hnext (k : Nat) : a + 4 * (k + 1) = a + 4 + 4 * k := by omega
    refine ⟨by rw [List.length_cons, hnext, hsentinel], fun j hj => ?_⟩
    cases j with
    | zero => rw [Nat.mul_zero, Nat.add_zero, hfirst.word, BitVec.toNat_ofNat, argvBefore_zero,
        Nat.add_zero]
    | succ j =>
      rw [hnext, hwords j (Nat.lt_of_succ_lt_succ hj), argvBefore_cons_succ]
      congr 1
      omega

/-- Where the strings stand, each is found after the ones before it, with its terminator. -/
theorem Memory.Holds.argvString {m : Memory} {a : Nat} {argv : List (List Byte)}
    (h : m.Holds a (argvStrings argv)) {j : Nat} (hj : j < argv.length) :
    m.Holds (a + argvBefore argv j) (argv[j] ++ [0]) := by
  induction argv generalizing a j with
  | nil => exact absurd hj (Nat.not_lt_zero j)
  | cons g gs ih =>
    rw [argvStrings, List.append_cons, Memory.holds_append] at h
    obtain ⟨hfirst, hrest⟩ := h
    cases j with
    | zero => exact hfirst
    | succ j =>
      have := ih hrest (Nat.lt_of_succ_lt_succ hj)
      rw [List.length_append, List.length_singleton, Nat.add_assoc] at this
      exact this

/-- A syscall instruction is a syscall made from a state in which only `pc` may have moved (rules R106,
R110, R111). -/
theorem exec_of_makesSyscall {i : Instr} {s : State} {d : RegIdx} {q : SyscallArgs} {p : Word}
    (hi : i.wellFormed = true) (h : MakesSyscall i s d q p) :
    ∃ u, exec i s = .next (syscallForm d q u) ∧ u.pc = p ∧ OnlyRegs [pcIndex] s u := by
  cases h with
  | sys => exact ⟨s, rfl, rfl, .refl _ s⟩
  | sysQ _ _ _ hflag =>
    refine ⟨s, ?_, rfl, .refl _ s⟩
    simp only [exec, execSysQ, whenFlag, hflag, if_true, sysArgs]
  | sysx a b r2 r3 r4 r5 =>
    have hreg (r : RegIdx) (hm : r ∈ (Instr.sysx d b r2 r3 r4 r5).regs) :
        s.advance.reg r = s.reg r := reg_advance_ne s (nameable_ne_pc (List.all_eq_true.1 hi r hm))
    refine ⟨s.advance, ?_, pc_advance s, onlyRegs_advance s⟩
    simp only [exec, execSysx]
    rw [hreg d (by simp [Instr.regs]), hreg b (by simp [Instr.regs]), hreg r2 (by simp [Instr.regs]),
      hreg r3 (by simp [Instr.regs]), hreg r4 (by simp [Instr.regs]), hreg r5 (by simp [Instr.regs])]

/-- A `getargv` with room for its block writes it (rule R122). -/
theorem syscallForm_getargv_fills {d : RegIdx} {q : SyscallArgs} {s : State} (hn : q.n = 5)
    (hcap : argvRequired s.guestArgv ≤ q.a2.toNat)
    (hfits : q.a1.toNat + argvRequired s.guestArgv ≤ Config.memSize) :
    syscallForm d q s =
      (s.setMem (s.mem.writeBytes q.a1.toNat (argvBlock q.a1.toNat s.guestArgv))).setReg d
        (BitVec.ofNat 32 (argvRequired s.guestArgv)) := by
  have hbridge : bridge q s = sysGetargv q s := by rw [bridge, hn]; rfl
  rw [syscallForm, hbridge, sysGetargv, if_neg (by omega), if_pos ((inBounds_iff _ _).2 hfits)]
  rfl

/-- What memory holds once the block stands at `base`. -/
theorem Memory.Holds.argvBlock {m : Memory} {base : Nat} {argv : List (List Byte)}
    (h : m.Holds base (argvBlock base argv)) (hfits : base + argvRequired argv ≤ Config.memSize) :
    m.word (base + 4 * argv.length) = 0 ∧
    ∀ j (hj : j < argv.length),
      m.word (base + 4 * j) = base + 4 * (argv.length + 1) + argvBefore argv j ∧
      m.Holds (base + 4 * (argv.length + 1) + argvBefore argv j) (argv[j] ++ [0]) := by
  obtain ⟨hoffsets, hstrings⟩ := Memory.holds_append.1 h
  rw [length_argvOffsets] at hstrings
  obtain ⟨hsentinel, hwords⟩ := hoffsets.word_argvOffsets
  refine ⟨hsentinel, fun j hj => ⟨?_, hstrings.argvString hj⟩⟩
  have hle := argvBefore_le argv j
  have hsize : Config.memSize = 65536 := rfl
  rw [hwords j hj, Nat.mod_eq_of_lt (by omega)]

/-- Settles O56: the block stands at `a1`, and its layout says where each word and string is. -/
theorem getargvWritesOffsetsThenStrings : Obligations.GetargvWritesOffsetsThenStrings := by
  rintro i s t d q p _ hi hmakes hn rfl hcap hfits hexec
  obtain ⟨u, hu, -, hou⟩ := exec_of_makesSyscall hi hmakes
  obtain ⟨hargv, -, -⟩ := hou.host
  rw [← hargv] at hcap hfits ⊢
  rw [hu, syscallForm_getargv_fills hn hcap hfits] at hexec
  obtain rfl := Host.Outcome.next.inj hexec
  rw [setReg_mem, setMem_mem]
  obtain ⟨hsentinel, hstrings⟩ :=
    (Memory.holds_writeBytes u.mem q.a1.toNat (argvBlock q.a1.toNat u.guestArgv)).argvBlock hfits
  refine ⟨hsentinel, fun j hj => ?_⟩
  obtain ⟨hword, hstring⟩ := hstrings j hj
  obtain ⟨hbytes, hnul⟩ := Memory.holds_append.1 hstring
  rw [hword]
  exact ⟨rfl, hnul.readByte (k := 0) Nat.one_pos, fun k hk => hbytes.readByte hk⟩

end Sys2Proof.Machine
end

section
/-! PROOFS. The family `30_encoding`: the opcode map, decoding what was encoded, what a step makes of the
window it decodes, and the forms of which this family gives the spelling. -/

namespace Sys2Proof

open Machine

/-! ### The opcode map -/

/-- A key is looked up exactly when it stands in the list. -/
theorem isSome_lookup_iff {α β : Type} [BEq α] [LawfulBEq α] {l : List (α × β)} {k : α} :
    (l.lookup k).isSome = true ↔ k ∈ l.map Prod.fst := by
  simp only [List.lookup_isSome_iff, beq_iff_eq, List.mem_map, eq_comm (a := k)]

/-- Where no key stands twice, the value beside a key is the one looked up. -/
theorem lookup_of_mem {α β : Type} [BEq α] [LawfulBEq α] {l : List (α × β)} {k : α} {v : β}
    (hl : (l.map Prod.fst).Nodup) (h : (k, v) ∈ l) : l.lookup k = some v := by
  obtain ⟨before, after, rfl⟩ := List.append_of_mem h
  rw [List.map_append, List.nodup_append] at hl
  refine List.lookup_eq_some_iff.2 ⟨before, after, rfl, fun p hp => ?_⟩
  exact bne_iff_ne.2 (hl.2.2 p.1 (List.mem_map_of_mem hp) k List.mem_cons_self).symm

/-- No two rows have the same pair (rule R62). -/
theorem nodup_pairs : (longPairs ++ shortRows.map Prod.fst).Nodup := by decide

/-- The rows have the 23 pairs, the twelve conditional ones and the two reserved ones (rules R62, R64). -/
theorem perm_pairs :
    (longPairs ++ shortRows.map Prod.fst).Perm (basePairs ++ otherPairs) := by decide

/-- The pairs with extension bytes (rule R51). -/
theorem hasExtension_iff {op1 op2 : Byte} :
    hasExtension op1 op2 = true ↔ (op1, op2) ∈ longPairs := isSome_lookup_iff

theorem mem_longPairs_of_mem_longRows {p : Byte × Byte}
    {mk : RegIdx → RegIdx → Byte → Byte → Byte → Byte → Instr} (hm : (p, mk) ∈ longRows) :
    p ∈ longPairs := List.mem_map_of_mem (f := Prod.fst) hm

theorem hasExtension_eq_false_of_mem_shortRows {op1 op2 : Byte} {mk : RegIdx → RegIdx → Instr}
    (hm : ((op1, op2), mk) ∈ shortRows) : hasExtension op1 op2 = false := by
  refine Bool.eq_false_iff.2 fun hx => ?_
  exact (List.nodup_append.1 nodup_pairs).2.2 _ (hasExtension_iff.1 hx) _
    (List.mem_map_of_mem hm) rfl

/-- A four-byte row spells what it builds: its pair stands in no other row. -/
theorem spells_of_mem_shortRows {op1 op2 : Byte} {mk : RegIdx → RegIdx → Instr}
    (hm : ((op1, op2), mk) ∈ shortRows) : Spells op1 op2 mk := by
  intro op3 op4 rest
  have hlong : longRows.lookup (op1, op2) = none :=
    Option.not_isSome_iff_eq_none.1 (Bool.eq_false_iff.1 (hasExtension_eq_false_of_mem_shortRows hm))
  have hshort := lookup_of_mem (List.nodup_append.1 nodup_pairs).2.1 hm
  simp only [decode, hlong, hshort]

/-- The pairs written out are those the decoder's two tables are keyed by. -/
theorem listed_iff {op1 op2 : Byte} :
    (op1, op2) ∈ basePairs ++ otherPairs ↔
      hasExtension op1 op2 = true ∨ (shortRows.lookup (op1, op2)).isSome = true := by
  rw [← perm_pairs.mem_iff, List.mem_append, hasExtension_iff, isSome_lookup_iff]

theorem byteLength_of_mem_shortRows {p : Byte × Byte} {mk : RegIdx → RegIdx → Instr}
    (hm : (p, mk) ∈ shortRows) (a b : RegIdx) : (mk a b).byteLength = 4 := by
  have hall : ∀ row ∈ shortRows, (row.2 a b).byteLength = 4 := by
    simp [shortRows, plainRows, condRows, Instr.byteLength]
  exact hall _ hm

theorem byteLength_of_mem_longRows {p : Byte × Byte}
    {mk : RegIdx → RegIdx → Byte → Byte → Byte → Byte → Instr} (hm : (p, mk) ∈ longRows)
    (a b : RegIdx) (e0 e1 e2 e3 : Byte) : (mk a b e0 e1 e2 e3).byteLength = 8 := by
  have hall : ∀ row ∈ longRows, (row.2 a b e0 e1 e2 e3).byteLength = 8 := by
    simp [longRows, Instr.byteLength]
  exact hall _ hm

/-- A decoded instruction is eight bytes long exactly when its pair has extension bytes (rule R51). -/
theorem byteLength_of_decode {op1 op2 op3 op4 : Byte} {rest : List Byte} {i : Instr}
    (h : decode (op1 :: op2 :: op3 :: op4 :: rest) = .ok i) :
    i.byteLength = if (op1, op2) ∈ longPairs then 8 else 4 := by
  rcases decode_ok_cases h with ⟨mk, hm, -, rfl⟩ | ⟨mk, e0, e1, e2, e3, tail, hm, -, rfl⟩
  · have hx := hasExtension_eq_false_of_mem_shortRows hm
    rw [if_neg (mt hasExtension_iff.2 (by rw [hx]; decide)), byteLength_of_mem_shortRows hm]
  · rw [if_pos (mem_longPairs_of_mem_longRows hm), byteLength_of_mem_longRows hm]

/-- A decoded window has a pair of the map. -/
theorem listed_of_decode {op1 op2 op3 op4 : Byte} {rest : List Byte} {i : Instr}
    (h : decode (op1 :: op2 :: op3 :: op4 :: rest) = .ok i) :
    (op1, op2) ∈ basePairs ++ otherPairs := by
  rw [← perm_pairs.mem_iff, List.mem_append]
  rcases decode_ok_cases h with ⟨mk, hm, -⟩ | ⟨mk, _, _, _, _, _, hm, -⟩
  · exact .inr (List.mem_map_of_mem hm)
  · exact .inl (mem_longPairs_of_mem_longRows hm)

/-- Settles O12: the decoder accepts the pairs of its rows, which are those written out. -/
theorem decodeAcceptsExactlyTheOpcodeMap : Obligations.DecodeAcceptsExactlyTheOpcodeMap := by
  intro op1 op2 op3 op4 e0 e1 e2 e3
  cases hd : decode [op1, op2, op3, op4, e0, e1, e2, e3] with
  | ok i =>
    exact ⟨fun _ => ⟨i, rfl, byteLength_of_decode hd⟩, fun hn => absurd (listed_of_decode hd) hn⟩
  | error e =>
    rcases decode_error_cases hd with ⟨-, hlen, -⟩ | ⟨hx, hl, rfl⟩
    · exact absurd hlen (by simp)
    · have hn : (op1, op2) ∉ basePairs ++ otherPairs := by
        rw [listed_iff, hx, hl]
        decide
      exact ⟨fun hm => absurd hm hn, fun _ => rfl⟩

/-! ### Decoding an encoding -/

/-- A window with two register names is decoded to the form its pair spells. -/
theorem decode_window {op1 op2 : Byte} {mk : RegIdx → RegIdx → Instr} (h : Spells op1 op2 mk)
    {a b : RegIdx} (ha : a.nameable = true) (hb : b.nameable = true) (rest : List Byte) :
    decode (window op1 op2 a b ++ rest) = .ok (mk a b) := by
  have := h (regChar a) (regChar b) rest
  rwa [regName_regChar ha, regName_regChar hb] at this

/-- So is a window of a form that ignores `op4` (rule R65). -/
theorem decode_window1 {op1 op2 : Byte} {mk : RegIdx → Instr} (h : Spells op1 op2 fun a _ => mk a)
    {a : RegIdx} (ha : a.nameable = true) (rest : List Byte) :
    decode (window1 op1 op2 a ++ rest) = .ok (mk a) := by
  have := h (regChar a) spaceByte rest
  rwa [regName_regChar ha] at this

theorem decode_ldh (op3 op4 h0 h1 h2 h3 : Byte) (rest : List Byte) :
    decode (0x3D :: 0x23 :: op3 :: op4 :: h0 :: h1 :: h2 :: h3 :: rest) =
      .ok (.ldh (regName op3) h0 h1 h2 h3) := rfl

theorem decode_ldi (op3 op4 e0 e1 e2 e3 : Byte) (rest : List Byte) :
    decode (0x3D :: 0x24 :: op3 :: op4 :: e0 :: e1 :: e2 :: e3 :: rest) =
      .ok (.ldi (regName op3) (BitVec.ofNat 32 (leNat [e0, e1, e2, e3]))) := rfl

theorem decode_sysx (op3 op4 e0 e1 e2 e3 : Byte) (rest : List Byte) :
    decode (0x53 :: 0x2B :: op3 :: op4 :: e0 :: e1 :: e2 :: e3 :: rest) =
      .ok (.sysx (regName op3) (regName op4) (regName e0) (regName e1) (regName e2) (regName e3)) :=
  rfl

/-- The four bytes of a literal spell it (rule R60). -/
theorem ofNat_leNat_leBytes_four (v : Word) : BitVec.ofNat 32 (leNat (leBytes 4 v)) = v := by
  rw [leNat_leBytes_four, BitVec.ofNat_toNat, BitVec.setWidth_eq]

/-- What was encoded is decoded, whatever follows: each form's pair spells it, and the character of a
register names it. -/
theorem decode_encode {i : Instr} (hi : i.wellFormed = true) (rest : List Byte) :
    decode (encode i ++ rest) = .ok i := by
  have hr (r : RegIdx) (hm : r ∈ i.regs) : r.nameable = true := List.all_eq_true.1 hi r hm
  cases i with
    simp only [Instr.regs, List.mem_cons, List.not_mem_nil, or_false, forall_eq_or_imp,
      forall_eq, false_imp_iff, implies_true] at hr
  | ldh a h0 h1 h2 h3 =>
    refine (decode_ldh (regChar a) spaceByte h0 h1 h2 h3 rest).trans ?_
    rw [regName_regChar hr]
  | ldi a v =>
    refine (decode_ldi (regChar a) spaceByte _ _ _ _ rest).trans ?_
    rw [regName_regChar hr]
    exact congrArg (fun w => Except.ok (Instr.ldi a w)) (ofNat_leNat_leBytes_four v)
  | sysx a b r2 r3 r4 r5 =>
    obtain ⟨ha, hb, h2, h3, h4, h5⟩ := hr
    refine (decode_sysx (regChar a) (regChar b) _ _ _ _ rest).trans ?_
    rw [regName_regChar ha, regName_regChar hb, regName_regChar h2, regName_regChar h3,
      regName_regChar h4, regName_regChar h5]
  | jmp a | jmpQ a => exact decode_window1 (fun _ _ _ => rfl) hr rest
  | rsvLd16 | rsvSt16 => rfl
  | mov a b | ldb a b | ldw a b | stb a b | stw a b | add a b | sub a b | mul a b | div a b
  | and a b | or a b | xor a b | shr a b | shl a b | ceq a b | cgt a b | clt a b | cne a b
  | sys a b | movQ a b | addQ a b | subQ a b | mulQ a b | divQ a b | andQ a b | orQ a b | xorQ a b
  | shrQ a b | shlQ a b | sysQ a b =>
    exact decode_window (fun _ _ _ => rfl) hr.1 hr.2 rest

theorem length_encode (i : Instr) : (encode i).length = i.byteLength := by
  cases i <;> rfl

/-- Settles O10. -/
theorem decodeOfEncodeIsIdentity : Obligations.DecodeOfEncodeIsIdentity :=
  fun i rest hi => ⟨decode_encode hi rest, length_encode i⟩

end Sys2Proof
end

section
/-! PROOFS. The family `30_encoding`, continued: what a step makes of the window at `pc`. -/

namespace Sys2Proof.Machine

/-! ### The conditional modifier -/

/-- The conditional form of an instruction that has one (rules R66, R96 to R107). -/
def conditional : Instr → Instr
  | .mov a b => .movQ a b
  | .add a b => .addQ a b
  | .sub a b => .subQ a b
  | .mul a b => .mulQ a b
  | .div a b => .divQ a b
  | .and a b => .andQ a b
  | .or a b => .orQ a b
  | .xor a b => .xorQ a b
  | .shr a b => .shrQ a b
  | .shl a b => .shlQ a b
  | .sys a b => .sysQ a b
  | .jmp a => .jmpQ a
  | i => i

/-- The conditional rows are the unmarked rows with a space, the space replaced by the marker
(rule R54). -/
theorem condRows_eq_map :
    condRows = (plainRows.filter fun row => row.1.2 = spaceByte).map fun row =>
      ((row.1.1, condMarker), fun a b => conditional (row.2 a b)) := rfl

/-- A row with a space has a conditional row beside it. -/
theorem conditional_mem_shortRows {op1 : Byte} {mk : RegIdx → RegIdx → Instr}
    (hm : ((op1, spaceByte), mk) ∈ shortRows) :
    ((op1, condMarker), fun a b => conditional (mk a b)) ∈ shortRows := by
  have hcond : ∀ row ∈ condRows, row.1.2 ≠ spaceByte := by simp [condRows, spaceByte]
  refine List.mem_append_right _ ?_
  rcases List.mem_append.1 hm with hm | hm
  · rw [condRows_eq_map]
    exact List.mem_map_of_mem (f := fun row : (Byte × Byte) × (RegIdx → RegIdx → Instr) =>
      ((row.1.1, condMarker), fun a b => conditional (row.2 a b)))
      (List.mem_filter.2 ⟨hm, decide_eq_true rfl⟩)
  · exact absurd rfl (hcond _ hm)

/-- No form with extension bytes is conditional (rules R51, R66). -/
theorem ne_condMarker_of_mem_longPairs {p : Byte × Byte} (hm : p ∈ longPairs) : p.2 ≠ condMarker := by
  have hall : ∀ q ∈ longPairs, q.2 ≠ condMarker := by simp [longPairs, condMarker]
  exact hall p hm

theorem whenFlag_of_flag {s : State} (hflag : s.flag = true) (form : State → State) :
    whenFlag form s = form s := if_pos hflag

theorem whenFlag_of_not_flag {s : State} (hflag : s.flag = false) (form : State → State) :
    whenFlag form s = s := if_neg (Bool.eq_false_iff.1 hflag)

/-- With the flag 1 a conditional form is the unmarked one (rule R95). -/
theorem exec_conditional {s : State} (hflag : s.flag = true) (i : Instr) :
    exec (conditional i) s = exec i s := by
  cases i with
  | mov | add | sub | mul | div | and | or | xor | shr | shl | sys | jmp =>
    exact congrArg Host.Outcome.next (whenFlag_of_flag hflag _)
  | _ => rfl

/-- With the flag 0 a conditional form does nothing (rule R95). -/
theorem exec_condRow_of_not_flag {p : Byte × Byte} {mk : RegIdx → RegIdx → Instr}
    (hm : (p, mk) ∈ condRows) {s : State} (hflag : s.flag = false) (a b : RegIdx) :
    exec (mk a b) s = .next s := by
  have hall : ∀ row ∈ condRows, exec (row.2 a b) s = .next s := by
    simp only [condRows, List.forall_mem_cons, exec, execMovQ, execAddQ, execSubQ, execMulQ, execDivQ,
      execAndQ, execOrQ, execXorQ, execShrQ, execShlQ, execSysQ, execJmpQ,
      whenFlag_of_not_flag hflag, List.not_mem_nil, false_imp_iff, implies_true, and_self]
  exact hall _ hm

theorem not_skips_of_flag {s : State} (hflag : s.flag = true) : ¬ s.Skips := fun hs =>
  absurd (hflag.symm.trans hs.2) (by decide)

/-- A skipped window changes `pc` alone (rule R54). -/
theorem step_of_skips {s : State} (hc : s.CanFetch) (hs : s.Skips) : step s = .next s.advance := by
  obtain ⟨hr, hf⟩ := hc
  have hskip : decodeWindow (s.windowByte 0) (s.windowByte 1) (s.windowByte 2) (s.windowByte 3)
      s.advance = .done s.advance := if_pos hs
  exact (step_in_bounds hr hf).trans (congrArg finish hskip)

/-- A skipped window that decodes holds an instruction that would do nothing. -/
theorem exec_of_decode_of_not_flag {op1 op2 op3 op4 : Byte} {rest : List Byte} {i : Instr}
    (h2 : op2 = condMarker) (hd : decode (op1 :: op2 :: op3 :: op4 :: rest) = .ok i) {s : State}
    (hflag : s.flag = false) : exec i s = .next s := by
  have hplain : ∀ row ∈ plainRows, row.1.2 ≠ condMarker := by simp [plainRows, condMarker]
  rcases decode_ok_cases hd with ⟨mk, hm, -, rfl⟩ | ⟨mk, _, _, _, _, _, hm, -⟩
  · rcases List.mem_append.1 hm with hm | hm
    · exact absurd h2 (hplain _ hm)
    · exact exec_condRow_of_not_flag hm hflag _ _
  · exact absurd h2 (ne_condMarker_of_mem_longPairs (mem_longPairs_of_mem_longRows hm))

/-! ### From the bytes at `pc` to the instruction run -/

/-- An eight-byte form whose bytes lie in memory runs past the base advance (rules R52, R59 to R61). -/
theorem step_of_decode_long {s : State} {i : Instr} (hr : s.runState = .fetch)
    (hf : s.pc.toNat + 8 ≤ Config.memSize)
    (hx : hasExtension (s.windowByte 0) (s.windowByte 1) = true)
    (hd : decode (s.mem.readBytes s.pc.toNat 8) = .ok i) : step s = exec i s.advance := by
  have hf4 : s.pc.toNat + 4 ≤ Config.memSize := by omega
  have hns : ¬ (s.windowByte 1 = condMarker ∧ s.advance.flag = false) := fun h =>
    ne_condMarker_of_mem_longPairs (hasExtension_iff.1 hx) h.1
  have hpc : s.advance.pc.toNat = s.pc.toNat + 4 := by rw [pc_advance, toNat_pc_add_four hf4]
  have hrun : decodeWindow (s.windowByte 0) (s.windowByte 1) (s.windowByte 2) (s.windowByte 3)
      s.advance = .run i s.advance := by
    rw [decodeWindow, if_neg hns, if_pos hx, fetchBytes_of_fits (by omega), hpc]
    change dispatchBytes _ _ (s.mem.readBytes s.pc.toNat 8) s.advance = _
    rw [dispatchBytes, hd]
  exact (step_in_bounds hr hf4).trans (congrArg finish hrun)

theorem byteLength_eq (i : Instr) : i.byteLength = 4 ∨ i.byteLength = 8 := by
  unfold Instr.byteLength
  split <;> decide

/-- The pair of a decoded instruction has extension bytes exactly when it is eight bytes long
(rule R51). -/
theorem hasExtension_iff_of_decode {op1 op2 op3 op4 : Byte} {rest : List Byte} {i : Instr}
    (hd : decode (op1 :: op2 :: op3 :: op4 :: rest) = .ok i) :
    hasExtension op1 op2 = true ↔ i.byteLength = 8 := by
  rw [hasExtension_iff, byteLength_of_decode hd]
  split <;> simp [*]

/-- Settles O14, by the two lengths an instruction can have; a skipped window holds an instruction that
does nothing. -/
theorem stepRunsTheDecodedInstruction : Obligations.StepRunsTheDecodedInstruction := by
  intro s i hr hf hd
  refine ⟨?_, pc_advance s, onlyRegs_advance s⟩
  rcases byteLength_eq i with hlen | hlen <;> rw [hlen] at hf hd
  · have hx : hasExtension (s.windowByte 0) (s.windowByte 1) = false :=
      Bool.eq_false_iff.2 fun hx => by
        have := (hasExtension_iff_of_decode hd).1 hx
        omega
    by_cases hs : s.Skips
    · rw [step_of_skips ⟨hr, hf⟩ hs, exec_of_decode_of_not_flag hs.1 hd (s := s.advance) hs.2]
    · exact step_of_decode_short ⟨hr, hf⟩ hs hx hd
  · exact step_of_decode_long hr hf ((hasExtension_iff_of_decode hd).2 hlen) hd

/-! ### Windows that are no instruction -/

/-- The pair a window is looked up by: the conditional marker stands for a space (rule R54). -/
def normalPair (p : Byte × Byte) : Byte × Byte := (p.1, if p.2 = 0x3F then 0x20 else p.2)

/-- The reserved pairs (rule R64). -/
def reservedPairs : List (Byte × Byte) := [(0x3D, 0x7B), (0x7B, 0x3D)]

theorem normalPair_mem_of_mem_longPairs {p : Byte × Byte} (hm : p ∈ longPairs) :
    normalPair p ∈ basePairs := by
  have hall : ∀ q ∈ longPairs, normalPair q ∈ basePairs := by
    simp [longPairs, normalPair, basePairs]
  exact hall p hm

/-- Of the pairs of the map only the reserved ones stand for none of the 23 (rules R54, R64). -/
theorem normalPair_mem_or_reserved {p : Byte × Byte} (hm : p ∈ basePairs ++ otherPairs) :
    normalPair p ∈ basePairs ∨ p ∈ reservedPairs := by
  have hall : ∀ q ∈ basePairs ++ otherPairs, normalPair q ∈ basePairs ∨ q ∈ reservedPairs := by
    simp [basePairs, otherPairs, normalPair, reservedPairs]
  exact hall p hm

theorem spells_rsvLd16 : Spells 0x3D 0x7B fun _ _ => .rsvLd16 := fun _ _ _ => rfl

theorem spells_rsvSt16 : Spells 0x7B 0x3D fun _ _ => .rsvSt16 := fun _ _ _ => rfl

/-- The instruction of a reserved pair faults (rule R64). -/
theorem exec_of_reserved {op1 op2 op3 op4 : Byte} {rest : List Byte} {i : Instr}
    (hm : (op1, op2) ∈ reservedPairs) (hd : decode (op1 :: op2 :: op3 :: op4 :: rest) = .ok i)
    (s : State) : ∃ c : FaultCause, c.kind = .invalidOpcode ∧ exec i s = .next (s.raise c) := by
  simp only [reservedPairs, List.mem_cons, Prod.mk.injEq, List.not_mem_nil, or_false] at hm
  rcases hm with ⟨rfl, rfl⟩ | ⟨rfl, rfl⟩
  · obtain rfl := Except.ok.inj ((spells_rsvLd16 op3 op4 rest).symm.trans hd)
    exact ⟨_, rfl, rfl⟩
  · obtain rfl := Except.ok.inj ((spells_rsvSt16 op3 op4 rest).symm.trans hd)
    exact ⟨_, rfl, rfl⟩

/-- A window that is not skipped and stands for none of the 23 pairs faults past the base advance
(rules R63, R133). -/
theorem step_of_unlisted {s : State} (hc : s.CanFetch) (hs : ¬ s.Skips)
    (hn : normalPair (s.windowByte 0, s.windowByte 1) ∉ basePairs) :
    ∃ c : FaultCause, c.kind = .invalidOpcode ∧ step s = .next (s.advance.raise c) := by
  obtain ⟨hr, hf⟩ := hc
  obtain ⟨t, hstep⟩ := step_answers hr
  obtain ⟨-, ⟨hb, -⟩ | ⟨-, op1, op2, op3, op4, rfl, rfl, rfl, rfl, hcase⟩⟩ := step_cases hstep
  · omega
  rcases hcase with ⟨h1, hflag, -⟩ | ⟨-, ⟨hx, -⟩ | ⟨-, -, b, rfl⟩ | ⟨i, rest, hd, -, he⟩⟩
  · exact absurd ⟨h1, hflag⟩ hs
  · exact absurd (normalPair_mem_of_mem_longPairs (hasExtension_iff.1 hx)) hn
  · exact ⟨_, rfl, hstep⟩
  · have hreserved := (normalPair_mem_or_reserved (listed_of_decode hd)).resolve_left hn
    obtain ⟨c, hkind, hexec⟩ := exec_of_reserved hreserved hd s.advance
    exact ⟨c, hkind, hstep.trans (he.symm.trans hexec)⟩

/-- Settles O17. -/
theorem unlistedPairsAreInvalidOpcodes : Obligations.UnlistedPairsAreInvalidOpcodes := by
  refine ⟨by decide, rfl, fun s hc hs hn => ?_⟩
  obtain ⟨c, hkind, hstep⟩ := step_of_unlisted hc hs hn
  exact ⟨_, hstep, pc_advance s, hkind ▸ faultsWith_advance_raise s c⟩

/-- A window that decodes with a space runs, with the flag 1, alike with the conditional marker
(rules R54, R95). -/
theorem step_of_decode_space {s : State} (hc : s.CanFetch) (h1 : s.windowByte 1 = condMarker)
    (hflag : s.flag = true) {i : Instr}
    (hd : decode [s.windowByte 0, spaceByte, s.windowByte 2, s.windowByte 3] = .ok i) :
    step s = exec i s.advance := by
  rcases decode_ok_cases hd with ⟨mk, hm, -, rfl⟩ | ⟨mk, _, _, _, _, _, -, hrest, -⟩
  · have hmQ := conditional_mem_shortRows hm
    rw [← exec_conditional (s := s.advance) hflag]
    refine step_of_decode_short hc (not_skips_of_flag hflag) ?_ ?_
    · rw [h1]
      exact hasExtension_eq_false_of_mem_shortRows hmQ
    · rw [h1]
      exact spells_of_mem_shortRows hmQ _ _ []
  · cases hrest

/-- A window with one of the 23 pairs that has a space decodes by itself: none of them has extension
bytes. -/
theorem exists_decode_of_space_mem_basePairs {op1 op3 op4 : Byte}
    (hm : (op1, spaceByte) ∈ basePairs) : ∃ i, decode [op1, spaceByte, op3, op4] = .ok i := by
  have hlong : ∀ q ∈ longPairs, q.2 ≠ spaceByte := by simp [longPairs, spaceByte]
  have hx : hasExtension op1 spaceByte = false :=
    Bool.eq_false_iff.2 fun hx => hlong _ (hasExtension_iff.1 hx) rfl
  obtain ⟨i, hd, -⟩ :=
    (decodeAcceptsExactlyTheOpcodeMap op1 spaceByte op3 op4 0 0 0 0).1 (List.mem_append_left _ hm)
  exact ⟨i, (decode_short hx op3 op4 _).symm.trans hd⟩

/-- Settles O18. -/
theorem conditionalModifier : Obligations.ConditionalModifier := by
  refine fun s hc h1 => ⟨fun hflag => ?_, fun hflag => ⟨fun i hd => ?_, fun hno => ?_⟩⟩
  · exact ⟨_, step_of_skips hc ⟨h1, hflag⟩, pc_advance s, onlyRegs_advance s⟩
  · exact step_of_decode_space hc h1 hflag hd
  · refine unlistedPairsAreInvalidOpcodes.2.2 s hc (not_skips_of_flag hflag) fun hm => ?_
    rw [if_pos h1] at hm
    obtain ⟨i, hd⟩ := exists_decode_of_space_mem_basePairs hm
    exact hno i hd

end Sys2Proof.Machine
end

section
/-! PROOFS. The family `30_encoding`, continued: register names, operand bytes, the literals, the syscall
forms, and what reaches the host. -/

namespace Sys2Proof.Machine

/-! ### Register names and operand bytes -/

theorem regName_of_digit {c : Byte} (h : 0x30 ≤ c.toNat ∧ c.toNat ≤ 0x39) :
    (regName c).val = c.toNat - 0x30 := by
  rw [regName, if_pos h, Fin.val_ofNat]
  omega

theorem regName_of_upper {c : Byte} (h : 0x41 ≤ c.toNat ∧ c.toNat ≤ 0x5A) :
    (regName c).val = c.toNat - 0x41 + 10 := by
  rw [regName, if_neg (by omega), if_pos h, Fin.val_ofNat]
  omega

theorem regName_of_lower {c : Byte} (h : 0x61 ≤ c.toNat ∧ c.toNat ≤ 0x7A) :
    (regName c).val = c.toNat - 0x61 + 36 := by
  rw [regName, if_neg (by omega), if_neg (by omega), if_pos h, Fin.val_ofNat]
  omega

/-- Every byte outside the three ranges names register 0 (rule R57). -/
theorem regName_of_other {c : Byte} (h0 : ¬ (0x30 ≤ c.toNat ∧ c.toNat ≤ 0x39))
    (hA : ¬ (0x41 ≤ c.toNat ∧ c.toNat ≤ 0x5A)) (ha : ¬ (0x61 ≤ c.toNat ∧ c.toNat ≤ 0x7A)) :
    regName c = 0 := by
  rw [regName, if_neg h0, if_neg hA, if_neg ha]

/-- Settles O8. -/
theorem registerNamesDecodeByRange : Obligations.RegisterNamesDecodeByRange := by
  intro c
  have hle : (regName c).val < 62 := of_decide_eq_true (regName_nameable c)
  exact ⟨fun hlo hhi => regName_of_digit ⟨hlo, hhi⟩, fun hlo hhi => regName_of_upper ⟨hlo, hhi⟩,
    fun hlo hhi => regName_of_lower ⟨hlo, hhi⟩,
    fun h0 hA ha => congrArg Fin.val (regName_of_other h0 hA ha), Nat.le_of_lt_succ hle⟩

/-- Settles O9, by decoding the five words. -/
theorem sampleWordsDecode : Obligations.SampleWordsDecode := ⟨rfl, rfl, rfl, rfl, rfl⟩

/-- Settles O13: the decoder looks at operand bytes through `regName`, and four rows drop the second. -/
theorem operandBytesActOnlyThroughTheirNames : Obligations.OperandBytesActOnlyThroughTheirNames := by
  refine ⟨fun op1 op2 c3 d3 c4 d4 rest h3 h4 => ?_, fun op1 op2 op3 c4 d4 rest hm => ?_⟩
  · simp only [decode, h3, h4]
  · simp only [List.mem_cons, Prod.mk.injEq, List.not_mem_nil, or_false] at hm
    rcases hm with ⟨rfl, rfl⟩ | ⟨rfl, rfl⟩ | ⟨rfl, rfl⟩ | ⟨rfl, rfl⟩ <;> rfl

/-! ### Missing extension bytes -/

/-- A long form whose extension bytes do not fit faults past the base advance (rules R59 to R61, R133). -/
theorem extensionFaults {op1 op2 : Byte} (hm : (op1, op2) ∈ longPairs) : ExtensionFaults op1 op2 := by
  rintro s ⟨hr, hf⟩ ⟨rfl, rfl⟩ h8
  have hx := hasExtension_iff.2 hm
  obtain ⟨t, hstep⟩ := step_answers hr
  obtain ⟨-, ⟨hb, -⟩ | ⟨-, op1, op2, op3, op4, rfl, rfl, rfl, rfl, hcase⟩⟩ := step_cases hstep
  · omega
  rcases hcase with ⟨h1, -, -⟩ | ⟨-, ⟨-, -, rfl⟩ | ⟨hx', -⟩ | ⟨i, rest, -, hrest, -⟩⟩
  · exact absurd h1 (ne_condMarker_of_mem_longPairs hm)
  · exact ⟨_, hstep, pc_advance s, faultsWith_advance_raise s (.outOfBounds (s.pc + 4))⟩
  · exact absurd hx (Bool.eq_false_iff.1 hx')
  · have := (hrest hx).1
    omega

/-! ### The literals -/

/-- What a literal leaves: its register written past the extension bytes (rule R18). -/
theorem onlyRegs_literal (s : State) (a : RegIdx) (v : Word) :
    OnlyRegs [a, pcIndex] s (s.advance.setReg a v) :=
  ⟨(keepsRegs_advance s).trans (keepsRegs_setReg _ a v) (by simp) (by simp), rfl, fun _ => rfl,
    ⟨rfl, rfl, rfl⟩, ⟨rfl, rfl, rfl⟩, rfl⟩

theorem pc_literal (s : State) {a : RegIdx} (ha : a.nameable = true) (v : Word) :
    (s.advance.setReg a v).pc = s.pc + 4 := by
  rw [pc_setReg_ne _ _ (nameable_ne_pc ha).symm, pc_advance]

/-- Settles O30. -/
theorem ldiLoadsTheWordLiteral : Obligations.LdiLoadsTheWordLiteral := by
  refine ⟨fun op3 op4 e0 e1 e2 e3 rest => ?_, extensionFaults (by decide), fun a v s ha => ?_⟩
  · rw [decode_ldi, leNat_four]
  · exact ⟨_, rfl, pc_literal s ha v, reg_setReg_same _ a v, onlyRegs_literal s a v⟩

/-- `HexVal` is the value of a digit (rule R58). -/
theorem hexVal_eq_some_iff {c : Byte} {d : Nat} : hexVal c = some d ↔ HexDigit c d := by
  unfold hexVal HexDigit
  split
  · rw [Option.some.injEq]
    omega
  · split
    · rw [Option.some.injEq]
      omega
    · simp only [reduceCtorEq, false_iff]
      omega

theorem HexDigit.lt {c : Byte} {d : Nat} (h : HexDigit c d) : d < 16 := by
  rcases h with ⟨hd, -⟩ | ⟨-, hd, -⟩ <;> omega

/-- Four digits have a literal (rule R59). -/
theorem hexLit_of_digits {h0 h1 h2 h3 : Byte} {d0 d1 d2 d3 : Nat} (hd0 : HexDigit h0 d0)
    (hd1 : HexDigit h1 d1) (hd2 : HexDigit h2 d2) (hd3 : HexDigit h3 d3) :
    hexLit h0 h1 h2 h3 = some (BitVec.ofNat 32 (4096 * d0 + 256 * d1 + 16 * d2 + d3)) := by
  simp only [hexLit, hexVal_eq_some_iff.2 hd0, hexVal_eq_some_iff.2 hd1, hexVal_eq_some_iff.2 hd2,
    hexVal_eq_some_iff.2 hd3]

/-- A literal has four digits (rule R59). -/
theorem digits_of_hexLit {h0 h1 h2 h3 : Byte} {v : Word} (hl : hexLit h0 h1 h2 h3 = some v) :
    ∀ h ∈ [h0, h1, h2, h3], ∃ d, HexDigit h d := by
  unfold hexLit at hl
  split at hl
  · rename_i d0 d1 d2 d3 e0 e1 e2 e3
    simp only [List.forall_mem_cons, List.not_mem_nil, false_imp_iff, implies_true, and_true]
    exact ⟨⟨d0, hexVal_eq_some_iff.1 e0⟩, ⟨d1, hexVal_eq_some_iff.1 e1⟩,
      ⟨d2, hexVal_eq_some_iff.1 e2⟩, ⟨d3, hexVal_eq_some_iff.1 e3⟩⟩
  · cases hl

/-- The value of four digits fits in a word (rule R59). -/
theorem toNat_ofNat_digits {h0 h1 h2 h3 : Byte} {d0 d1 d2 d3 : Nat} (hd0 : HexDigit h0 d0)
    (hd1 : HexDigit h1 d1) (hd2 : HexDigit h2 d2) (hd3 : HexDigit h3 d3) :
    (BitVec.ofNat 32 (4096 * d0 + 256 * d1 + 16 * d2 + d3)).toNat =
      4096 * d0 + 256 * d1 + 16 * d2 + d3 := by
  have := hd0.lt
  have := hd1.lt
  have := hd2.lt
  have := hd3.lt
  rw [BitVec.toNat_ofNat]
  omega

theorem exec_ldh_of_literal (a : RegIdx) {h0 h1 h2 h3 : Byte} {v : Word}
    (hl : hexLit h0 h1 h2 h3 = some v) (s : State) :
    exec (.ldh a h0 h1 h2 h3) s = .next (s.advance.setReg a v) := by
  simp only [exec, execLdh, hl]

theorem exec_ldh_of_bad_digit (a : RegIdx) {h0 h1 h2 h3 : Byte} (hl : hexLit h0 h1 h2 h3 = none)
    (s : State) :
    exec (.ldh a h0 h1 h2 h3) s = .next (s.advance.drawAny.setReg a s.any32) := by
  simp only [exec, execLdh, hl]

/-- Settles O28: the digits either have a literal or one of them is bad. -/
theorem ldhLoadsTheHexLiteral : Obligations.LdhLoadsTheHexLiteral := by
  refine ⟨decode_ldh, extensionFaults (by decide), fun a h0 h1 h2 h3 s ha => ?_⟩
  cases hl : hexLit h0 h1 h2 h3 with
  | some v =>
    obtain ⟨hregs, hflag, hmem, hstatus, hhost, hdraws⟩ := onlyRegs_literal s a v
    refine ⟨_, exec_ldh_of_literal a hl s, pc_literal s ha v, hregs, hflag, hmem, hstatus, hhost,
      fun d0 d1 d2 d3 hd0 hd1 hd2 hd3 => ⟨?_, hdraws⟩, fun hbad => ?_⟩
    · obtain rfl := Option.some.inj (hl.symm.trans (hexLit_of_digits hd0 hd1 hd2 hd3))
      rw [reg_setReg_same, toNat_ofNat_digits hd0 hd1 hd2 hd3]
    · obtain ⟨h, hh, hno⟩ := hbad
      obtain ⟨d, hd⟩ := digits_of_hexLit hl h hh
      exact absurd hd (hno d)
  | none =>
    obtain ⟨hregs, hflag, hmem, hstatus, hhost, -⟩ := onlyRegs_literal s a s.any32
    refine ⟨_, exec_ldh_of_bad_digit a hl s, pc_literal s ha _, hregs, hflag, hmem, hstatus, hhost,
      fun d0 d1 d2 d3 hd0 hd1 hd2 hd3 => ?_, fun _ => ⟨reg_setReg_same _ a _, rfl⟩⟩
    exact absurd (hl.symm.trans (hexLit_of_digits hd0 hd1 hd2 hd3)) (by simp)

/-! ### The reserved forms and the syscall forms -/

/-- Settles O46. -/
theorem reservedFormsAreInvalidOpcodes : Obligations.ReservedFormsAreInvalidOpcodes :=
  ⟨spells_rsvLd16, spells_rsvSt16, fun s =>
    ⟨⟨_, rfl, (OnlyRegs.refl [] s).faultsWith_raise (.invalidOpcode 0x3D 0x7B)⟩,
      ⟨_, rfl, (OnlyRegs.refl [] s).faultsWith_raise (.invalidOpcode 0x7B 0x3D)⟩⟩⟩

theorem spells_sys : Spells 0x53 0x20 .sys := fun _ _ _ => rfl

theorem spells_sysQ : Spells 0x53 0x3F .sysQ := fun _ _ _ => rfl

/-- Settles O47. -/
theorem syscallFormsAreSpelled : Obligations.SyscallFormsAreSpelled :=
  ⟨spells_sys, spells_sysQ, decode_sysx, extensionFaults (by decide), fun a b s hflag =>
    ⟨s, congrArg Host.Outcome.next (whenFlag_of_not_flag hflag _), .refl [] s⟩⟩

/-! ### The host -/

/-- What is asked of the host in one syscall: nothing, or one call by a number up to 4 (rules R116,
R124). -/
theorem hostCalls_syscallForm (d : RegIdx) (q : SyscallArgs) (s : State) :
    (syscallForm d q s).guestArgv = s.guestArgv ∧
    ((syscallForm d q s).hostCalls = s.hostCalls ∨
      (q.n.toNat ≤ 4 ∧ ∃ c, (syscallForm d q s).hostCalls = s.hostCalls ++ [c])) := by
  rcases syscallForm_cases d q s with ⟨c, e, -⟩ | ⟨-, e⟩ | ⟨v, e⟩ | ⟨-, -, -, e⟩ | ⟨hn, v, c, e⟩ |
    ⟨hn, -, v, e⟩ <;> rw [e]
  · exact ⟨rfl, .inl rfl⟩
  · exact ⟨rfl, .inl rfl⟩
  · exact ⟨rfl, .inl rfl⟩
  · exact ⟨rfl, .inl rfl⟩
  · exact ⟨rfl, .inr ⟨hn, c, rfl⟩⟩
  · exact ⟨rfl, .inr ⟨by rw [hn]; decide, _, rfl⟩⟩

/-- Settles O23: of the effects a step can have, only a syscall asks the host. -/
theorem onlySyscallsReachTheHost : Obligations.OnlySyscallsReachTheHost := by
  intro s t hstep
  cases (step_effect hstep).2 with
  | syscall _ hs h0 h1 =>
    obtain ⟨hargv, hcalls⟩ := hostCalls_syscallForm (s.windowReg 2) _ s.advance
    exact ⟨hargv, hcalls.imp_right fun h => ⟨runsSyscall_of_not_skips hs h0 h1, h⟩⟩
  | syscallExt _ hp =>
    obtain ⟨hargv, hcalls⟩ := hostCalls_syscallForm (s.windowReg 2) _ s.advance.advance
    exact ⟨hargv, hcalls.imp_right fun h => ⟨⟨hp.1, .inr (.inl hp.2)⟩, h⟩⟩
  | _ => exact ⟨rfl, .inl rfl⟩

end Sys2Proof.Machine
end

section
/-! PROOFS. The family `40_move_literal`: `MOV`. -/

namespace Sys2Proof.Machine

/-- Writing a register changes that register alone (rule R27). -/
theorem onlyRegs_setReg (s : State) (a : RegIdx) (v : Word) : OnlyRegs [a] s (s.setReg a v) :=
  ⟨keepsRegs_setReg s a v, rfl, fun _ => rfl, ⟨rfl, rfl, rfl⟩, ⟨rfl, rfl, rfl⟩, rfl⟩

theorem spells_mov : Spells 0x3D 0x20 .mov := fun _ _ _ => rfl

/-- `MOV` is one register write (rule R73). -/
theorem exec_mov (a b : RegIdx) (s : State) : exec (.mov a b) s = .next (s.setReg a (s.reg b)) := rfl

/-- Settles O29. -/
theorem movCopiesARegister : Obligations.MovCopiesARegister :=
  ⟨spells_mov, fun a b s =>
    ⟨_, exec_mov a b s, congrArg BitVec.toNat (reg_setReg_same s a _), onlyRegs_setReg s a _⟩⟩

end Sys2Proof.Machine
end

section
/-! PROOFS. The family `41_load_store`: `LDB`, `LDW`, `STB` and `STW`. -/

namespace Sys2Proof.Machine

/-! ### Accesses that do not fit -/

/-- `OUT_OF_BOUNDS`, taken by the instruction itself, changes nothing but the status (rule R132). -/
theorem faultsWith_raise_outOfBounds (s : State) (p : Word) :
    FaultsWith .outOfBounds [] s (s.raise (.outOfBounds p)) :=
  (OnlyRegs.refl [] s).faultsWith_raise (.outOfBounds p)

/-- A load that does not fit takes `OUT_OF_BOUNDS` (rule R33). -/
theorem loadForm_of_not_fits {n : Nat} {a b : RegIdx} {s : State}
    (h : Config.memSize < (s.reg b).toNat + n) :
    loadForm n a b s = s.raise (.outOfBounds (s.reg b)) := by
  simp only [loadForm, memRead_eq_none.2 h]

theorem exec_ldb_of_not_fits {a b : RegIdx} {s : State} (h : Config.memSize < (s.reg b).toNat + 1) :
    exec (.ldb a b) s = .next (s.raise (.outOfBounds (s.reg b))) :=
  congrArg Host.Outcome.next (loadForm_of_not_fits h)

theorem exec_ldw_of_not_fits {a b : RegIdx} {s : State} (h : Config.memSize < (s.reg b).toNat + 4) :
    exec (.ldw a b) s = .next (s.raise (.outOfBounds (s.reg b))) :=
  congrArg Host.Outcome.next (loadForm_of_not_fits h)

theorem exec_stb_of_not_fits {a b : RegIdx} {s : State} (h : Config.memSize < (s.reg a).toNat + 1) :
    exec (.stb a b) s = .next (s.raise (.outOfBounds (s.reg a))) :=
  congrArg Host.Outcome.next (storeForm_of_not_fits h)

/-! ### Loads -/

theorem spells_ldb : Spells 0x3D 0x5B .ldb := fun _ _ _ => rfl

theorem spells_ldw : Spells 0x3D 0x28 .ldw := fun _ _ _ => rfl

/-- A byte read into a register is zero-extended (rules R33, R76). -/
theorem toNat_ofNat_leNat_byte (c : Byte) : (BitVec.ofNat 32 (leNat [c])).toNat = c.toNat := by
  have hc := c.isLt
  simp only [leNat, BitVec.toNat_ofNat]
  omega

/-- The word at an address fits in a register (rules R33, R77). -/
theorem toNat_ofNat_word (m : Memory) (p : Nat) : (BitVec.ofNat 32 (m.word p)).toNat = m.word p :=
  (BitVec.toNat_ofNat _ _).trans (Nat.mod_eq_of_lt (word4_lt _ _ _ _))

/-- Settles O31. -/
theorem ldbLoadsAZeroExtendedByte : Obligations.LdbLoadsAZeroExtendedByte := by
  refine ⟨spells_ldb, fun a b s => ⟨fun h => ?_, fun h => ?_⟩⟩
  · refine ⟨_, exec_ldb_of_fits h, ?_, onlyRegs_setReg s a _⟩
    rw [reg_setReg_same, toNat_ofNat_leNat_byte]
  · exact ⟨_, exec_ldb_of_not_fits (Nat.lt_succ_of_le h), faultsWith_raise_outOfBounds s _⟩

/-- Settles O32. -/
theorem ldwLoadsALittleEndianWord : Obligations.LdwLoadsALittleEndianWord := by
  refine ⟨spells_ldw, fun a b s => ⟨fun h => ?_, fun h => ?_⟩⟩
  · refine ⟨_, exec_ldw_of_fits h, ?_, onlyRegs_setReg s a _⟩
    rw [reg_setReg_same, toNat_ofNat_word]
  · exact ⟨_, exec_ldw_of_not_fits h, faultsWith_raise_outOfBounds s _⟩

/-! ### Stores -/

theorem spells_stw : Spells 0x28 0x3D .stw := fun _ _ _ => rfl

/-- Writing bytes to memory changes them alone (rules R27, R34). -/
theorem setMem_writeBytes_frame (s : State) (p : Nat) (bs : List Byte) :
    KeepsMemOutside p bs.length s (s.setMem (s.mem.writeBytes p bs)) ∧
    KeepsRegs [] s (s.setMem (s.mem.writeBytes p bs)) ∧
    (s.setMem (s.mem.writeBytes p bs)).flag = s.flag ∧
    KeepsStatus s (s.setMem (s.mem.writeBytes p bs)) ∧
    KeepsHost s (s.setMem (s.mem.writeBytes p bs)) ∧
    (s.setMem (s.mem.writeBytes p bs)).anyDraws = s.anyDraws :=
  ⟨fun _ _ => Memory.readByte_writeBytes_outside (by omega), fun _ _ => rfl, rfl, ⟨rfl, rfl, rfl⟩,
    ⟨rfl, rfl, rfl⟩, rfl⟩

/-- Byte `k` of a word, as a number (rule R31). -/
theorem toNat_byte_of_word (v : Word) (k : Nat) :
    ((v >>> (8 * k)).setWidth 8).toNat = v.toNat / 2 ^ (8 * k) % 256 := by
  rw [BitVec.toNat_setWidth, BitVec.toNat_ushiftRight, Nat.shiftRight_eq_div_pow]

/-- Byte `k` of a word that was written to memory (rules R31, R34). -/
theorem toNat_readByte_writeBytes_leBytes (m : Memory) (p : Nat) {n k : Nat} (hk : k < n) (v : Word) :
    ((m.writeBytes p (leBytes n v)).readByte (p + k)).toNat = v.toNat / 2 ^ (8 * k) % 256 := by
  rw [Memory.readByte_writeBytes_inside (by rwa [length_leBytes]), getElem_leBytes, toNat_byte_of_word]

/-- Settles O33. -/
theorem stbStoresTheLowByte : Obligations.StbStoresTheLowByte := by
  refine ⟨spells_stb, fun a b s => ⟨fun h => ?_, fun h => ?_⟩⟩
  · refine ⟨_, exec_stb_of_fits h, ?_, setMem_writeBytes_frame s _ [(s.reg b).setWidth 8]⟩
    rw [setMem_mem, Memory.readByte_writeByte, if_pos rfl, BitVec.toNat_setWidth]
  · exact ⟨_, exec_stb_of_not_fits (Nat.lt_succ_of_le h), faultsWith_raise_outOfBounds s _⟩

/-- Settles O34. -/
theorem stwStoresALittleEndianWord : Obligations.StwStoresALittleEndianWord := by
  refine ⟨spells_stw, fun a b s => ⟨fun h => ?_, fun h => ?_⟩⟩
  · exact ⟨_, exec_stw_of_fits h, fun k hk => toNat_readByte_writeBytes_leBytes s.mem _ hk _,
      setMem_writeBytes_frame s _ (leBytes 4 (s.reg b))⟩
  · exact ⟨_, exec_stw_of_not_fits h, faultsWith_raise_outOfBounds s _⟩

end Sys2Proof.Machine
end

section
/-! PROOFS. The family `42_alu`: the nine ALU forms and `DIV?`. -/

namespace Sys2Proof.Machine

/-! ### ALU results as unsigned numbers -/

theorem toNat_aluAdd (x y : Word) : (aluAdd x y).toNat = (x.toNat + y.toNat) % 2 ^ 32 :=
  BitVec.toNat_add x y

/-- A difference below 0 wraps around (rule R82). -/
theorem toNat_aluSub (x y : Word) :
    (aluSub x y).toNat =
      if y.toNat ≤ x.toNat then x.toNat - y.toNat else x.toNat + 2 ^ 32 - y.toNat := by
  have hx := x.isLt
  have hy := y.isLt
  rw [aluSub, BitVec.toNat_sub]
  split <;> omega

theorem toNat_aluMul (x y : Word) : (aluMul x y).toNat = x.toNat * y.toNat % 2 ^ 32 :=
  BitVec.toNat_mul x y

theorem toNat_aluDiv (x y : Word) : (aluDiv x y).toNat = x.toNat / y.toNat :=
  BitVec.toNat_udiv

/-- Zeros enter at bit 31 (rule R88), and at a count of 32 or more there is nothing else (D8). -/
theorem toNat_aluShr (x n : Word) :
    (aluShr x n).toNat = if 32 ≤ n.toNat then 0 else x.toNat / 2 ^ n.toNat := by
  unfold aluShr
  split
  · rfl
  · rw [BitVec.toNat_ushiftRight, Nat.shiftRight_eq_div_pow]

/-- Zeros enter at bit 0 (rule R89), and at a count of 32 or more there is nothing else (D8). -/
theorem toNat_aluShl (x n : Word) :
    (aluShl x n).toNat = if 32 ≤ n.toNat then 0 else x.toNat * 2 ^ n.toNat % 2 ^ 32 := by
  unfold aluShl
  split
  · rfl
  · rw [BitVec.toNat_shiftLeft, Nat.shiftLeft_eq]

/-! ### The forms that cannot fault -/

theorem reg_aluForm_same (g : Word → Word → Word) (a b : RegIdx) (s : State) :
    (aluForm g a b s).reg a = g (s.reg a) (s.reg b) := reg_setReg_same s a _

theorem onlyRegs_aluForm (g : Word → Word → Word) (a b : RegIdx) (s : State) :
    OnlyRegs [a] s (aluForm g a b s) := onlyRegs_setReg s a _

/-- A two-register form follows the rule that its result follows as an unsigned number (rule R80). -/
theorem registerRule_of_aluForm {mk : RegIdx → RegIdx → Instr} {g : Word → Word → Word}
    {f : Nat → Nat → Nat} (hexec : ∀ a b s, exec (mk a b) s = .next (aluForm g a b s))
    (hval : ∀ x y, (g x y).toNat = f x.toNat y.toNat) : RegisterRule mk f := by
  refine fun a b s => ⟨_, hexec a b s, ?_, onlyRegs_aluForm g a b s⟩
  rw [reg_aluForm_same, hval]

/-- A two-register form whose result is `op` of each pair of bits writes that to every bit of its
destination and changes nothing else (rules R85 to R87). -/
theorem bitwise_of_aluForm {i : Instr} {g : Word → Word → Word} {op : Bool → Bool → Bool}
    {a b : RegIdx} {s : State} (hexec : exec i s = .next (aluForm g a b s))
    (hbit : ∀ x y k, (g x y).getLsbD k = op (x.getLsbD k) (y.getLsbD k)) :
    ∃ t, exec i s = .next t ∧ OnlyRegs [a] s t ∧
      ∀ k, (t.reg a).getLsbD k = op ((s.reg a).getLsbD k) ((s.reg b).getLsbD k) := by
  refine ⟨_, hexec, onlyRegs_aluForm g a b s, fun k => ?_⟩
  rw [reg_aluForm_same, hbit]

theorem spells_add : Spells 0x2B 0x20 .add := fun _ _ _ => rfl

theorem spells_sub : Spells 0x2D 0x20 .sub := fun _ _ _ => rfl

theorem spells_mul : Spells 0x2A 0x20 .mul := fun _ _ _ => rfl

/-- Settles O37. -/
theorem addSubMulWrap : Obligations.AddSubMulWrap :=
  ⟨⟨spells_add, registerRule_of_aluForm (fun _ _ _ => rfl) toNat_aluAdd⟩,
    ⟨spells_sub, registerRule_of_aluForm (fun _ _ _ => rfl) toNat_aluSub⟩,
    ⟨spells_mul, registerRule_of_aluForm (fun _ _ _ => rfl) toNat_aluMul⟩⟩

theorem spells_and : Spells 0x26 0x20 .and := fun _ _ _ => rfl

theorem spells_or : Spells 0x7C 0x20 .or := fun _ _ _ => rfl

theorem spells_xor : Spells 0x5E 0x20 .xor := fun _ _ _ => rfl

/-- Settles O39. -/
theorem bitwiseFormsActOnEveryBit : Obligations.BitwiseFormsActOnEveryBit :=
  ⟨spells_and, spells_or, spells_xor, fun _ _ _ =>
    ⟨bitwise_of_aluForm (g := aluAnd) rfl fun _ _ _ => BitVec.getLsbD_and,
      bitwise_of_aluForm (g := aluOr) rfl fun _ _ _ => BitVec.getLsbD_or,
      bitwise_of_aluForm (g := aluXor) rfl fun _ _ _ => BitVec.getLsbD_xor⟩⟩

theorem spells_shr : Spells 0x3E 0x20 .shr := fun _ _ _ => rfl

theorem spells_shl : Spells 0x3C 0x20 .shl := fun _ _ _ => rfl

/-- Settles O40. -/
theorem shiftsByAnyCount : Obligations.ShiftsByAnyCount :=
  ⟨⟨spells_shr, registerRule_of_aluForm (fun _ _ _ => rfl) toNat_aluShr⟩,
    ⟨spells_shl, registerRule_of_aluForm (fun _ _ _ => rfl) toNat_aluShl⟩⟩

/-! ### Division -/

theorem spells_div : Spells 0x2F 0x20 .div := fun _ _ _ => rfl

theorem spells_divQ : Spells 0x2F 0x3F .divQ := fun _ _ _ => rfl

/-- By a divisor that is not 0, `DIV` writes the quotient and nothing else (rule R84). -/
theorem exec_div_of_ne_zero {a b : RegIdx} {s : State} (h : s.reg b ≠ 0) :
    ∃ t, exec (.div a b) s = .next t ∧
      (t.reg a).toNat = (s.reg a).toNat / (s.reg b).toNat ∧ OnlyRegs [a] s t := by
  refine ⟨_, congrArg Host.Outcome.next (if_neg h), ?_, onlyRegs_setReg s a _⟩
  rw [reg_setReg_same, toNat_aluDiv]

/-- By 0, `DIV` faults and leaves its destination (rules R84, R132). -/
theorem exec_div_of_eq_zero {a b : RegIdx} {s : State} (h : s.reg b = 0) :
    ∃ t, exec (.div a b) s = .next t ∧ FaultsWith .divideByZero [] s t :=
  ⟨_, congrArg Host.Outcome.next (if_pos h),
    (OnlyRegs.refl [] s).faultsWith_raise (.divideByZero (s.pc - 4))⟩

/-- Settles O38. -/
theorem divRoundsDownOrFaults : Obligations.DivRoundsDownOrFaults :=
  ⟨spells_div, fun _ _ _ => ⟨exec_div_of_ne_zero, exec_div_of_eq_zero⟩⟩

/-- With the flag 1 `DIV?` is `DIV` (rule R95). -/
theorem exec_divQ_of_flag {s : State} (hflag : s.flag = true) (a b : RegIdx) :
    exec (.divQ a b) s = exec (.div a b) s := exec_conditional hflag (.div a b)

/-- Settles O44: with the flag 1 `DIV?` is `DIV`, with the flag 0 it does nothing. -/
theorem conditionalDivide : Obligations.ConditionalDivide := by
  refine ⟨spells_divQ, fun a b s => ⟨fun hflag => ?_, fun hflag hb => ?_, fun hflag hb => ?_⟩⟩
  · exact ⟨s, congrArg Host.Outcome.next (whenFlag_of_not_flag hflag _), .refl [] s⟩
  · rw [exec_divQ_of_flag hflag]
    exact exec_div_of_ne_zero hb
  · rw [exec_divQ_of_flag hflag]
    exact exec_div_of_eq_zero hb

end Sys2Proof.Machine
end

section
/-! PROOFS. The family `43_compare_cond`: the compares, the conditional forms but `DIV?`, the jumps and the
guest's exit. -/

namespace Sys2Proof.Machine

/-! ### The guest's exit -/

/-- Syscall 7 halts with its first argument, whatever register the result would go to (rules R113, R123). -/
theorem syscallForm_exit {d : RegIdx} {q : SyscallArgs} (hn : q.n = 7) (s : State) :
    syscallForm d q s = s.halt q.a1 := by
  have hbridge : bridge q s = (.halt q.a1, s) := by rw [bridge, hn]; rfl
  rw [syscallForm, hbridge, complete]

/-- Settles O48: before the exit only `pc` has moved, and the exit writes the status alone. -/
theorem exitHaltsWithItsCode : Obligations.ExitHaltsWithItsCode := by
  intro i s d q p hi hmakes hn
  obtain ⟨u, hexec, hpc, hregs, hflag, hmem, ⟨-, hkind, -⟩, hhost, hdraws⟩ :=
    exec_of_makesSyscall hi hmakes
  rw [syscallForm_exit hn] at hexec
  exact ⟨_, hexec, hpc, rfl, rfl, hkind, hregs, hflag, hmem, hhost, hdraws⟩

/-! ### Compares -/

theorem flagEq_iff (x y : Word) : flagEq x y = true ↔ x.toNat = y.toNat :=
  decide_eq_true_iff.trans BitVec.toNat_inj.symm

theorem flagGt_iff (x y : Word) : flagGt x y = true ↔ x.toNat > y.toNat := decide_eq_true_iff

theorem flagLt_iff (x y : Word) : flagLt x y = true ↔ x.toNat < y.toNat := decide_eq_true_iff

theorem flagNe_iff (x y : Word) : flagNe x y = true ↔ x.toNat ≠ y.toNat :=
  decide_eq_true_iff.trans BitVec.toNat_ne_iff_ne.symm

/-- A compare follows the relation that its flag follows on unsigned numbers (rule R90). -/
theorem compareRule_of_compareForm {mk : RegIdx → RegIdx → Instr} {r : Word → Word → Bool}
    {rel : Nat → Nat → Prop} (hexec : ∀ a b s, exec (mk a b) s = .next (compareForm r a b s))
    (hrel : ∀ x y, r x y = true ↔ rel x.toNat y.toNat) : CompareRule mk rel :=
  fun a b s => ⟨_, hexec a b s, hrel (s.reg a) (s.reg b), fun _ _ => rfl, fun _ => rfl,
    ⟨rfl, rfl, rfl⟩, ⟨rfl, rfl, rfl⟩, rfl⟩

theorem spells_ceq : Spells 0x3F 0x3D .ceq := fun _ _ _ => rfl

theorem spells_cgt : Spells 0x3F 0x3E .cgt := fun _ _ _ => rfl

theorem spells_clt : Spells 0x3F 0x3C .clt := fun _ _ _ => rfl

theorem spells_cne : Spells 0x3F 0x21 .cne := fun _ _ _ => rfl

/-- Settles O41. -/
theorem comparesWriteTheFlag : Obligations.ComparesWriteTheFlag :=
  ⟨⟨spells_ceq, compareRule_of_compareForm (fun _ _ _ => rfl) flagEq_iff⟩,
    ⟨spells_cgt, compareRule_of_compareForm (fun _ _ _ => rfl) flagGt_iff⟩,
    ⟨spells_clt, compareRule_of_compareForm (fun _ _ _ => rfl) flagLt_iff⟩,
    ⟨spells_cne, compareRule_of_compareForm (fun _ _ _ => rfl) flagNe_iff⟩⟩

/-! ### Conditional forms -/

/-- A conditional row spells its form, and the form follows the rule of the unmarked one when the flag is 1
(rules R66, R95). -/
theorem spells_and_conditionalRule {op1 op2 : Byte} {mk mkQ : RegIdx → RegIdx → Instr}
    {f : Nat → Nat → Nat} (hm : ((op1, op2), mkQ) ∈ condRows)
    (hQ : ∀ a b, mkQ a b = conditional (mk a b)) (h : RegisterRule mk f) :
    Spells op1 op2 mkQ ∧ ConditionalRule mkQ f := by
  refine ⟨spells_of_mem_shortRows (List.mem_append_right _ hm), fun a b s => ?_⟩
  cases hflag : s.flag with
  | true =>
    rw [hQ, exec_conditional hflag]
    exact h a b s
  | false => exact ⟨s, exec_condRow_of_not_flag hm hflag a b, .refl [] s⟩

theorem registerRule_and : RegisterRule .and fun x y => x &&& y :=
  registerRule_of_aluForm (fun _ _ _ => rfl) BitVec.toNat_and

theorem registerRule_or : RegisterRule .or fun x y => x ||| y :=
  registerRule_of_aluForm (fun _ _ _ => rfl) BitVec.toNat_or

theorem registerRule_xor : RegisterRule .xor fun x y => x ^^^ y :=
  registerRule_of_aluForm (fun _ _ _ => rfl) BitVec.toNat_xor

/-- Settles O42, from the rules of the unmarked forms. -/
theorem conditionalMoveAndArithmetic : Obligations.ConditionalMoveAndArithmetic := by
  obtain ⟨-, hmov⟩ := movCopiesARegister
  obtain ⟨⟨-, hadd⟩, ⟨-, hsub⟩, -, hmul⟩ := addSubMulWrap
  exact ⟨spells_and_conditionalRule (by simp [condRows]) (fun _ _ => rfl) hmov,
    spells_and_conditionalRule (by simp [condRows]) (fun _ _ => rfl) hadd,
    spells_and_conditionalRule (by simp [condRows]) (fun _ _ => rfl) hsub,
    spells_and_conditionalRule (by simp [condRows]) (fun _ _ => rfl) hmul⟩

/-- Settles O43, from the rules of the unmarked forms. -/
theorem conditionalBitwiseAndShifts : Obligations.ConditionalBitwiseAndShifts := by
  obtain ⟨⟨-, hshr⟩, -, hshl⟩ := shiftsByAnyCount
  exact ⟨spells_and_conditionalRule (by simp [condRows]) (fun _ _ => rfl) registerRule_and,
    spells_and_conditionalRule (by simp [condRows]) (fun _ _ => rfl) registerRule_or,
    spells_and_conditionalRule (by simp [condRows]) (fun _ _ => rfl) registerRule_xor,
    spells_and_conditionalRule (by simp [condRows]) (fun _ _ => rfl) hshr,
    spells_and_conditionalRule (by simp [condRows]) (fun _ _ => rfl) hshl⟩

/-! ### Jumps -/

theorem spells_jmp : Spells 0x4A 0x20 (fun a _ => .jmp a) := fun _ _ _ => rfl

theorem spells_jmpQ : Spells 0x4A 0x3F (fun a _ => .jmpQ a) := fun _ _ _ => rfl

/-- `JMP` is one write of `pc`, the target unchecked (rule R127). -/
theorem exec_jmp (a : RegIdx) (s : State) : exec (.jmp a) s = .next (s.setPc (s.reg a)) := rfl

/-- With the flag 1 `JMP?` is `JMP` (rules R95, R107). -/
theorem exec_jmpQ_of_flag {s : State} (hflag : s.flag = true) (a : RegIdx) :
    exec (.jmpQ a) s = .next (s.setPc (s.reg a)) :=
  (exec_conditional hflag (.jmp a)).trans (exec_jmp a s)

/-- Writing `pc` changes that register alone (rules R17, R27). -/
theorem onlyRegs_setPc (s : State) (v : Word) : OnlyRegs [pcIndex] s (s.setPc v) :=
  onlyRegs_setReg s pcIndex v

/-- A core whose `pc` was set where no window fits faults there at the next step (rule R133). -/
theorem step_setPc_of_not_fits {s : State} {v : Word} (hr : s.runState = .fetch)
    (h : Config.memSize < v.toNat + 4) :
    step (s.setPc v) = .next ((s.setPc v).raise (.outOfBounds v)) := by
  have hstep := step_fetch_out_of_bounds (s := s.setPc v) hr (by rwa [pc_setPc])
  rwa [pc_setPc] at hstep

/-- Settles O45. -/
theorem jumpsWriteThePc : Obligations.JumpsWriteThePc := by
  refine ⟨spells_jmp, spells_jmpQ, fun a s => ⟨?_, fun hflag => ?_, fun hflag => ?_⟩⟩
  · refine ⟨_, exec_jmp a s, pc_setPc s _, onlyRegs_setPc s _, fun hr h => ?_⟩
    exact ⟨_, step_setPc_of_not_fits hr h, pc_setPc s _, faultsWith_raise_outOfBounds _ _⟩
  · exact ⟨_, exec_jmpQ_of_flag hflag a, pc_setPc s _, onlyRegs_setPc s _⟩
  · exact ⟨s, congrArg Host.Outcome.next (whenFlag_of_not_flag hflag _), .refl [] s⟩

end Sys2Proof.Machine
end

section
/-! PROOFS. The family `44_syscall`: what syscalls 0 to 5 and the invalid numbers do, and the shape of the
host's answers. -/

namespace Sys2Proof.Machine

/-! ### The host's answers -/

/-- A result reports a failure from `2^31` up (rule R115). -/
theorem isNegative_iff (v : Word) : isNegative v = true ↔ 2 ^ 31 ≤ v.toNat := by
  rw [isNegative, BitVec.msb_eq_decide]
  exact decide_eq_true_iff

theorem not_isNegative_iff (v : Word) : ¬ isNegative v = true ↔ v.toNat < 2 ^ 31 := by
  rw [isNegative_iff, Nat.not_le]

theorem nextAnswer_of_cons {s : State} {ans : HostAnswer} {rest : List HostAnswer}
    (h : s.hostAnswers = ans :: rest) : s.nextAnswer = ans := by rw [State.nextAnswer, h]

theorem nextAnswer_of_nil {s : State} (h : s.hostAnswers = []) :
    s.nextAnswer = Config.hostAnswer s.hostCalls.length := by rw [State.nextAnswer, h]

/-- The next answer is a matter of the queue and the record of calls alone. -/
theorem KeepsHost.nextAnswer {s u : State} (h : KeepsHost s u) : u.nextAnswer = s.nextAnswer := by
  obtain ⟨-, hanswers, hcalls⟩ := h
  rw [State.nextAnswer, State.nextAnswer, hanswers, hcalls]

section Failure
variable {ans : HostAnswer} (h : 2 ^ 31 ≤ ans.ret.toNat)
include h

theorem readData_of_failure (count : Word) : readData ans count = ans.data.take count.toNat :=
  if_pos ((isNegative_iff _).2 h)

theorem readResult_of_failure (count : Word) : readResult ans count = ans.ret :=
  if_pos ((isNegative_iff _).2 h)

theorem writeResult_of_failure (count : Word) : writeResult ans count = ans.ret :=
  if_pos ((isNegative_iff _).2 h)

theorem closeResult_of_failure : closeResult ans = ans.ret := if_pos ((isNegative_iff _).2 h)

end Failure

section Success
variable {ans : HostAnswer} (h : ans.ret.toNat < 2 ^ 31)
include h

theorem readData_of_success (count : Word) :
    readData ans count = ans.data.take (min ans.ret.toNat count.toNat) :=
  if_neg ((not_isNegative_iff _).2 h)

/-- The result of a `read` is the number of bytes delivered, which a word can hold (rule R118). -/
theorem toNat_readResult_of_success (count : Word) :
    (readResult ans count).toNat = (readData ans count).length := by
  have hlt := (length_readData_le ans count).trans_lt count.isLt
  rw [readResult, if_neg ((not_isNegative_iff _).2 h), BitVec.toNat_ofNat, Nat.mod_eq_of_lt hlt]

theorem toNat_writeResult_of_success (count : Word) :
    (writeResult ans count).toNat = min ans.ret.toNat count.toNat := by
  have hlt := (Nat.min_le_right ans.ret.toNat count.toNat).trans_lt count.isLt
  rw [writeResult, if_neg ((not_isNegative_iff _).2 h), BitVec.toNat_ofNat, Nat.mod_eq_of_lt hlt]

theorem closeResult_of_success : closeResult ans = 0 := if_neg ((not_isNegative_iff _).2 h)

end Success

/-- Settles O54: each result by whether the answer reports a failure; an answer of the right shape loses
nothing to the cut. -/
theorem hostAnswersKeepTheirShape : Obligations.HostAnswersKeepTheirShape := by
  refine ⟨fun s ans rest => nextAnswer_of_cons, fun s => nextAnswer_of_nil, fun ans count =>
    ⟨fun h => ?_, fun h => ?_, fun h hcount => ?_⟩⟩
  · have hread := toNat_readResult_of_success h count
    have hwrite := toNat_writeResult_of_success h count
    exact ⟨hread, hread ▸ length_readData_le ans count, hwrite ▸ Nat.min_le_right _ _,
      closeResult_of_success h⟩
  · refine ⟨readResult_of_failure h count, writeResult_of_failure h count, closeResult_of_failure h,
      length_readData_le ans count, fun hlen => ?_⟩
    rw [readData_of_failure h, List.take_of_length_le hlen]
  · refine ⟨BitVec.eq_of_toNat_eq ?_, fun hlen => ?_⟩
    · rw [toNat_writeResult_of_success h, Nat.min_eq_left hcount]
    · have hdata : readData ans count = ans.data := by
        rw [readData_of_success h, Nat.min_eq_left hcount, List.take_of_length_le hlen.le]
      exact ⟨BitVec.eq_of_toNat_eq (by rw [toNat_readResult_of_success h, hdata, hlen]), hdata⟩

/-! ### How a syscall instruction ends -/

/-- The result register of a syscall has a name, so it is not `pc` (rule R14). -/
theorem MakesSyscall.result_ne_pc {i : Instr} {s : State} {d : RegIdx} {q : SyscallArgs} {p : Word}
    (hi : i.wellFormed = true) (h : MakesSyscall i s d q p) : d ≠ pcIndex := by
  have hd : d ∈ i.regs := by cases h <;> exact List.mem_cons_self
  exact nameable_ne_pc (List.all_eq_true.1 hi d hd)

theorem syscallForm_of_bridge {q : SyscallArgs} {s t : State} {r : BridgeAnswer}
    (h : bridge q s = (r, t)) (d : RegIdx) : syscallForm d q s = complete d r t := by
  rw [syscallForm, h]

/-- Writing the result after `pc` has moved changes these two registers (rule R113). -/
theorem OnlyRegs.setReg {s u : State} (h : OnlyRegs [pcIndex] s u) (d : RegIdx) (v : Word) :
    OnlyRegs [d, pcIndex] s (u.setReg d v) :=
  ⟨h.regs.trans (keepsRegs_setReg u d v) (by simp) (by simp), h.flag, h.mem, h.status, h.host, h.draws⟩

/-- A call of the host, with whatever memory it leaves, made after nothing but moving `pc`. -/
theorem OnlyRegs.askedHost {s u : State} (h : OnlyRegs [pcIndex] s u) {d : RegIdx} (hd : d ≠ pcIndex)
    (c : HostCall) (m : Memory) (v : Word) :
    AskedHost c d v u.pc s (((u.askHost c).setMem m).setReg d v) := by
  obtain ⟨hargv, hanswers, hcalls⟩ := h.host
  exact {
    call := congrArg (· ++ [c]) hcalls
    answers := congrArg List.tail hanswers
    result := reg_setReg_same _ d v
    pc := pc_setReg_ne _ v hd.symm
    regs := (h.setReg d v).regs
    flag := h.flag
    status := h.status
    argv := hargv
    draws := h.draws }

/-- A syscall that faults wherever `pc` stands leaves nothing else behind (rule R133). -/
theorem syscallFaults_of_raise {i : Instr} {s : State} {d : RegIdx} {q : SyscallArgs} {p : Word}
    (hi : i.wellFormed = true) (hmakes : MakesSyscall i s d q p) (c : FaultCause)
    (h : ∀ u, OnlyRegs [pcIndex] s u → bridge q u = (.fatal c, u)) : SyscallFaults i s p c.kind := by
  obtain ⟨u, hexec, hpc, hou⟩ := exec_of_makesSyscall hi hmakes
  rw [syscallForm_of_bridge (h u hou)] at hexec
  exact ⟨_, hexec, hpc, hou.faultsWith_raise c⟩

/-- A syscall that answers by asking the host and leaves memory alone, wherever `pc` stands. -/
theorem askedHost_of_bridge {i : Instr} {s : State} {d : RegIdx} {q : SyscallArgs} {p : Word}
    (hi : i.wellFormed = true) (hmakes : MakesSyscall i s d q p) {c : HostCall} {v : Word}
    (h : ∀ u, OnlyRegs [pcIndex] s u → bridge q u = (.ret v, u.askHost c)) :
    ∃ t, exec i s = .next t ∧ AskedHost c d v p s t ∧ KeepsMem s t := by
  obtain ⟨u, hexec, rfl, hou⟩ := exec_of_makesSyscall hi hmakes
  rw [syscallForm_of_bridge (h u hou)] at hexec
  exact ⟨_, hexec, hou.askedHost (hmakes.result_ne_pc hi) c u.mem v, hou.mem⟩

/-! ### The number selects -/

section Numbers
variable {q : SyscallArgs} {u : State}

theorem bridge_eq_sysOpen (hn : q.n = 0) : bridge q u = sysOpen q u := by
  rw [bridge, hn]
  rfl

theorem bridge_eq_sysRead (hn : q.n = 1) : bridge q u = sysRead q u := by
  rw [bridge, hn]
  rfl

theorem bridge_eq_sysWrite (hn : q.n = 2) : bridge q u = sysWrite q u := by
  rw [bridge, hn]
  rfl

theorem bridge_eq_sysLseek (hn : q.n = 3) : bridge q u = sysLseek q u := by
  rw [bridge, hn]
  rfl

theorem bridge_eq_sysClose (hn : q.n = 4) : bridge q u = sysClose q u := by
  rw [bridge, hn]
  rfl

theorem bridge_eq_sysGetargv (hn : q.n = 5) : bridge q u = sysGetargv q u := by
  rw [bridge, hn]
  rfl

end Numbers

/-- Every number but 0 to 5 and 7 falls through to the last row (rule R124). -/
theorem bridge_of_invalid {q : SyscallArgs} (h : q.n.toNat = 6 ∨ 8 ≤ q.n.toNat) (s : State) :
    bridge q s = (.fatal (.invalidSyscall q.n), s) := by
  unfold bridge
  split
  case h_8 => rfl
  all_goals omega

/-- Settles O49. -/
theorem otherSyscallNumbersAreInvalid : Obligations.OtherSyscallNumbersAreInvalid :=
  fun _ _ _ q _ hi hmakes hn =>
    syscallFaults_of_raise hi hmakes (.invalidSyscall q.n) fun u _ => bridge_of_invalid hn u

/-! ### `open` -/

/-- The string at `a` is what stands before its zero byte, if that byte is among those looked at
(rule R114). -/
theorem Memory.cString_of_bytes {m : Memory} {a fuel : Nat} {path : List Byte}
    (hfuel : path.length < fuel)
    (hbytes : ∀ k (h : k < path.length), m.readByte (a + k) = path[k] ∧ path[k] ≠ 0)
    (hnul : m.readByte (a + path.length) = 0) : m.cString a fuel = some path := by
  induction path generalizing a fuel with
  | nil =>
    obtain ⟨fuel, rfl⟩ := Nat.exists_eq_add_one_of_ne_zero (Nat.ne_of_gt hfuel)
    exact if_pos hnul
  | cons c cs ih =>
    obtain ⟨fuel, rfl⟩ := Nat.exists_eq_add_one_of_ne_zero (Nat.ne_zero_of_lt hfuel)
    obtain ⟨hread, hne⟩ : m.readByte a = c ∧ c ≠ 0 := hbytes 0 (Nat.succ_pos _)
    have hnext (k : Nat) : a + 1 + k = a + (k + 1) := by omega
    have hrest : m.cString (a + 1) fuel = some cs :=
      ih (Nat.lt_of_succ_lt_succ hfuel)
        (fun k hk => by rw [hnext]; exact hbytes (k + 1) (Nat.succ_lt_succ hk))
        (by rw [hnext]; exact hnul)
    rw [Memory.cString, hread, if_neg hne, hrest]

/-- There is no string where no byte looked at is 0 (rule R114). -/
theorem Memory.cString_of_no_zero {m : Memory} {a fuel : Nat}
    (h : ∀ k, a ≤ k → k < a + fuel → m.readByte k ≠ 0) : m.cString a fuel = none := by
  induction fuel generalizing a with
  | zero => rfl
  | succ fuel ih =>
    have hrest : m.cString (a + 1) fuel = none := ih fun k hlo hhi => h k (by omega) (by omega)
    rw [Memory.cString, if_neg (h a (by omega) (by omega)), hrest]

theorem bridge_open_of_hasPath {q : SyscallArgs} {s u : State} {path : List Byte} (hn : q.n = 0)
    (h : HasPath s q.a1 path) (hmem : KeepsMem s u) (hhost : KeepsHost s u) :
    bridge q u = (.ret s.nextAnswer.ret, u.askHost (.openFile path q.a2 511)) := by
  obtain ⟨hfits, hbytes, hnul⟩ := h
  have hpath : u.pathAt q.a1 = some path :=
    Memory.cString_of_bytes (by omega) (fun k hk => by rw [hmem]; exact hbytes k hk)
      (by rw [hmem]; exact hnul)
  rw [bridge_eq_sysOpen hn, sysOpen, hpath, hhost.nextAnswer]
  rfl

theorem bridge_open_of_no_zero {q : SyscallArgs} {u : State} (hn : q.n = 0)
    (h : ∀ k, q.a1.toNat ≤ k → k < Config.memSize → u.mem.readByte k ≠ 0) :
    bridge q u = (.fatal (.outOfBounds q.a1), u) := by
  have hpath : u.pathAt q.a1 = none :=
    Memory.cString_of_no_zero fun k hlo hhi => h k hlo (by omega)
  rw [bridge_eq_sysOpen hn, sysOpen, hpath]

/-- Settles O50: the path is found in the state the call is made from, which reads as the first one. -/
theorem openAsksForThePath : Obligations.OpenAsksForThePath := by
  intro i s d q p hi hmakes hn
  refine ⟨fun path hpath => ?_, fun hzero => ?_⟩
  · exact askedHost_of_bridge hi hmakes fun u hou =>
      bridge_open_of_hasPath hn hpath hou.mem hou.host
  · exact syscallFaults_of_raise hi hmakes (.outOfBounds q.a1) fun u hou =>
      bridge_open_of_no_zero hn fun k hlo hhi => by rw [hou.mem]; exact hzero k hlo hhi

/-! ### `read` and `write` -/

theorem not_inBounds_iff (a : Word) (n : Nat) :
    ¬ inBounds a n = true ↔ Config.memSize < a.toNat + n := by
  rw [inBounds_iff, Nat.not_le]

theorem bridge_read_of_fits {q : SyscallArgs} (hn : q.n = 1)
    (h : q.a2.toNat + q.a3.toNat ≤ Config.memSize) (u : State) :
    bridge q u = (.ret (readResult u.nextAnswer q.a3), (u.askHost (.read q.a1 q.a3)).setMem
      (u.mem.writeBytes q.a2.toNat (readData u.nextAnswer q.a3))) := by
  rw [bridge_eq_sysRead hn, sysRead, if_pos ((inBounds_iff _ _).2 h)]

theorem bridge_write_of_fits {q : SyscallArgs} (hn : q.n = 2)
    (h : q.a2.toNat + q.a3.toNat ≤ Config.memSize) (u : State) :
    bridge q u = (.ret (writeResult u.nextAnswer q.a3),
      u.askHost (.write q.a1 (u.mem.readBytes q.a2.toNat q.a3.toNat))) := by
  rw [bridge_eq_sysWrite hn, sysWrite, if_pos ((inBounds_iff _ _).2 h)]

/-- `read` and `write` ask for their whole window before anything else (rule R114). -/
theorem bridge_window_of_not_fits {q : SyscallArgs} (hn : q.n = 1 ∨ q.n = 2)
    (h : Config.memSize < q.a2.toNat + q.a3.toNat) (u : State) :
    bridge q u = (.fatal (.outOfBounds q.a2), u) := by
  have hout := (not_inBounds_iff q.a2 q.a3.toNat).2 h
  rcases hn with hn | hn
  · rw [bridge_eq_sysRead hn, sysRead, if_neg hout]
  · rw [bridge_eq_sysWrite hn, sysWrite, if_neg hout]

/-- Memories that read alike hold the same bytes. -/
theorem KeepsMem.readBytes {s u : State} (h : KeepsMem s u) (a n : Nat) :
    u.mem.readBytes a n = s.mem.readBytes a n := by
  induction n generalizing a with
  | zero => rfl
  | succ n ih => rw [Memory.readBytes, Memory.readBytes, h, ih]

/-- Bytes written after a change that kept memory: outside them it reads as at the start (rule R34). -/
theorem KeepsMem.writeBytes_outside {s u : State} (h : KeepsMem s u) {a k : Nat} {bs : List Byte}
    (hk : ¬ (a ≤ k ∧ k < a + bs.length)) : (u.mem.writeBytes a bs).readByte k = s.mem.readByte k :=
  (Memory.readByte_writeBytes_outside (by omega)).trans (h k)

/-- Settles O51: the window holds the bytes written last, and nothing else was written. -/
theorem readDeliversIntoItsWindow : Obligations.ReadDeliversIntoItsWindow := by
  intro i s d q p hi hmakes hn
  refine ⟨fun hfits => ?_, fun hout => ?_⟩
  · obtain ⟨u, hexec, rfl, hou⟩ := exec_of_makesSyscall hi hmakes
    rw [syscallForm_of_bridge (bridge_read_of_fits hn hfits u), hou.host.nextAnswer] at hexec
    exact ⟨_, hexec, hou.askedHost (hmakes.result_ne_pc hi) _ _ _,
      fun k hk => Memory.readByte_writeBytes_inside hk, fun k hk => hou.mem.writeBytes_outside hk⟩
  · exact syscallFaults_of_raise hi hmakes (.outOfBounds q.a2) fun u _ =>
      bridge_window_of_not_fits (.inl hn) hout u

/-- Settles O52: the bytes handed over are those of the window. -/
theorem writeHandsOverItsBytes : Obligations.WriteHandsOverItsBytes := by
  intro i s d q p hi hmakes hn
  refine ⟨fun hfits => ?_, fun hout => ?_⟩
  · obtain ⟨t, hexec, hasked, hmem⟩ := askedHost_of_bridge hi hmakes
      (c := .write q.a1 (s.mem.readBytes q.a2.toNat q.a3.toNat))
      (v := writeResult s.nextAnswer q.a3) fun u hou => by
        rw [bridge_write_of_fits hn hfits, hou.host.nextAnswer, hou.mem.readBytes]
    exact ⟨t, _, hexec, hasked, hmem, Memory.length_readBytes _ _ _,
      fun k hk => Memory.getElem_readBytes _ _ _ k hk⟩
  · exact syscallFaults_of_raise hi hmakes (.outOfBounds q.a2) fun u _ =>
      bridge_window_of_not_fits (.inr hn) hout u

/-! ### `lseek` and `close` -/

/-- Every third argument gives `SEEK_SET` (rule R120). -/
theorem lseekWhence_eq (a3 : Word) : lseekWhence a3 = .seekSet := ite_self _

theorem bridge_lseek {q : SyscallArgs} (hn : q.n = 3) (u : State) :
    bridge q u = (.ret u.nextAnswer.ret, u.askHost (.lseek q.a1 q.a2 .seekSet)) := by
  rw [bridge_eq_sysLseek hn, sysLseek, lseekWhence_eq]

theorem bridge_close {q : SyscallArgs} (hn : q.n = 4) (u : State) :
    bridge q u = (.ret (closeResult u.nextAnswer), u.askHost (.close q.a1)) := by
  rw [bridge_eq_sysClose hn, sysClose]

/-- Settles O53. -/
theorem lseekAndCloseAskTheHost : Obligations.LseekAndCloseAskTheHost := by
  intro i s d q p hi hmakes
  refine ⟨fun hn => ?_, fun hn => ?_⟩
  · exact askedHost_of_bridge hi hmakes fun u hou => by rw [bridge_lseek hn, hou.host.nextAnswer]
  · exact askedHost_of_bridge hi hmakes fun u hou => by rw [bridge_close hn, hou.host.nextAnswer]

/-! ### `getargv` -/

theorem bridge_getargv_probes {q : SyscallArgs} {u : State} (hn : q.n = 5)
    (h : q.a2.toNat < argvRequired u.guestArgv) :
    bridge q u = (.ret (BitVec.ofNat 32 (argvRequired u.guestArgv)), u) := by
  rw [bridge_eq_sysGetargv hn, sysGetargv, if_pos h]

theorem bridge_getargv_of_not_fits {q : SyscallArgs} {u : State} (hn : q.n = 5)
    (hcap : argvRequired u.guestArgv ≤ q.a2.toNat)
    (hout : Config.memSize < q.a1.toNat + argvRequired u.guestArgv) :
    bridge q u = (.fatal (.outOfBounds q.a1), u) := by
  rw [bridge_eq_sysGetargv hn, sysGetargv, if_neg (Nat.not_lt.2 hcap), if_neg ((not_inBounds_iff _ _).2 hout)]

/-- Settles O55: the capacity first, then the bounds of the block. -/
theorem getargvProbesOrFills : Obligations.GetargvProbesOrFills := by
  rintro i s d q p _ hi hmakes hn rfl
  obtain ⟨u, hexec, rfl, hou⟩ := exec_of_makesSyscall hi hmakes
  have hd := hmakes.result_ne_pc hi
  obtain ⟨hargv, -, -⟩ := hou.host
  rw [← hargv, ← argvRequired]
  refine ⟨fun hcap => ?_, fun hcap => ⟨fun hfits => ?_, fun hout => ?_⟩⟩
  · rw [syscallForm_of_bridge (bridge_getargv_probes hn hcap)] at hexec
    exact ⟨_, hexec, pc_setReg_ne u _ hd.symm, reg_setReg_same u d _, hou.setReg d _⟩
  · rw [syscallForm_getargv_fills hn hcap hfits] at hexec
    refine ⟨_, hexec, pc_setReg_ne _ _ hd.symm, reg_setReg_same _ d _, (hou.setReg d _).regs,
      hou.flag, hou.status, hou.host, hou.draws, fun k hk => hou.mem.writeBytes_outside ?_⟩
    rwa [length_argvBlock]
  · rw [syscallForm_of_bridge (bridge_getargv_of_not_fits hn hcap hout)] at hexec
    exact ⟨_, hexec, rfl, hou.faultsWith_raise (.outOfBounds q.a1)⟩

end Sys2Proof.Machine
end
